-- ==== Sys2Proof/Word.lean ====
section
/-! DEFINITION. The word types of the block and their plainest arithmetic (spec 00_scope.md R7, R9).
All quantities are unsigned bit vectors; addresses are word addresses. -/

namespace Sys2Proof

/-- What the host hands to `writeData` and what `readData` answers: 16 bits (R23). -/
abbrev Word := BitVec 16

/-- The fourteen meaningful bits of a target memory word (R51). -/
abbrev Payload := BitVec 14

/-- One ICSP command code (R23, R82). -/
abbrev Code := BitVec 6

/-- The level of one wire: `true` is 1, `false` is 0 (R21). -/
abbrev Level := Bool

/-- The bits `v[0], v[1], …, v[n-1]` of `v` in time order, least significant bit first (R9, R57). -/
def bitsLsbFirst {w : Nat} (v : BitVec w) (n : Nat) : List Bool :=
  (List.range n).map fun i => v.getLsbD i

end Sys2Proof
end

