-- ==== Sys2Proof/Config.lean ====
section
/-! DEFINITION. The constants the source fixes (R7), the parameters of R8 as one plain record, and the
opaque constants that stand for what the spec leaves open. No proof can see the value of an opaque
constant. -/

namespace Sys2Proof

/-! ### Constants of R7 -/

/-- `CMD_BITS` (R7). -/
def cmdBits : Nat := 6
/-- `DATA_BITS` (R7). -/
def dataBits : Nat := 16
/-- `KEY_BITS` (R7). -/
def keyBits : Nat := 32
/-- `BLANK`, the erased-word sentinel, as the 14 bits of a memory word (R7, R51). -/
def blank : Payload := 0x3FFF#14
/-- The mask of the 14 meaningful bits, which is also `BLANK` as a 16-bit value (R7, R51). -/
def payloadMask : Word := 0x3FFF#16
/-- `FUSE_ADDR`, the word address of the one configuration word (R7). -/
def fuseAddr : Nat := 0x2007
/-- `CFG_INCREMENTS`, from load-config to the fuse word (R7). -/
def cfgIncrements : Nat := 7
/-- `CONFIG_BASE`, the pointer after load-config (R7, R52). -/
def configBase : Word := 0x2000#16
/-- `ROW`, the words of one programming row (R7, R59). -/
def rowWords : Nat := 16

/-! ### Parameters of R8 -/

/-- The seven command codes (R8, R83). Their values are parameters. -/
structure Codes where
  loadConfig : Code
  loadForProgram : Code
  readFromProgram : Code
  incrementAddress : Code
  beginTimedProgram : Code
  bulkErase : Code
  resetAddress : Code
deriving DecidableEq, Repr

/-- The seven codes, in the order of the table of R83. -/
def Codes.toList (c : Codes) : List Code :=
  [c.loadConfig, c.loadForProgram, c.readFromProgram, c.incrementAddress, c.beginTimedProgram,
    c.bulkErase, c.resetAddress]

/-- "The seven codes must be pairwise different" (R83, R238). -/
abbrev Codes.Distinct (c : Codes) : Prop := c.toList.Nodup

/-- The default codes of R8. PRESUMED: the spec marks them as general knowledge, not in its source.
Unsafe: a claim that names the bits of a code rests on them. Log entry 1. -/
def Codes.default : Codes where
  loadConfig := 0x00
  loadForProgram := 0x02
  readFromProgram := 0x04
  incrementAddress := 0x06
  beginTimedProgram := 0x08
  bulkErase := 0x09
  resetAddress := 0x16

/-- One row of the descriptor table: `{device_id, name, code_memory_size}` (R54, R150). -/
structure Row where
  deviceId : BitVec 9
  name : String
  codeMemorySize : Word
deriving DecidableEq, Repr

/-- A row is well formed: "a non-empty name and a non-zero code_memory_size" (R150), a multiple of
the row length (D17). -/
abbrev Row.Wf (r : Row) : Prop :=
  r.name ≠ "" ∧ r.codeMemorySize ≠ 0 ∧ r.codeMemorySize.toNat % 16 = 0

/-- The implementation parameters of R8. They are fixed before the first operation and never change
(R238); delays are microsecond counts. -/
structure Params where
  codes : Codes
  key : BitVec 32
  idIncrements : Nat
  tSetup : Nat
  tHold : Nat
  tCo : Nat
  tDly : Nat
  tEntHigh : Nat
  tEntLow : Nat
  tErase : Nat
  tProg : Nat
  tProgCfg : Nat
  table : List Row
  programMemorySize : Nat
  lvpMask : Payload
deriving DecidableEq, Repr

/-- The conditions the spec puts on the parameters (R83, R150, R8, U21): distinct codes, well-formed
rows, an image that reaches past the fuse word, one LVP bit, at most seven increments to the ID word. -/
abbrev Params.Wf (p : Params) : Prop :=
  p.codes.Distinct ∧ (∀ r ∈ p.table, r.Wf) ∧ fuseAddr < p.programMemorySize ∧
    (∃ i ∈ List.range 14, p.lvpMask = 1#14 <<< i) ∧ p.idIncrements ≤ 7

/-! ### What the spec leaves OPEN: opaque constants -/

namespace Config

/-- `T_CO`, named and given no value (R8, D23). -/
opaque tCo : Nat
/-- `T_DLY`, the post-delay of the five ordinary commands (R8, D10). -/
opaque tDly : Nat
/-- `T_ENT_HIGH`, how long MCLR stays high at entry (R8, D6). -/
opaque tEntHigh : Nat
/-- `T_ENT_LOW`, the wait before the first key bit (R8, D6). -/
opaque tEntLow : Nat
/-- The rows of `TABLE` (R8, D20) in a form that can spell every well-formed row and no other: ID, first
character and rest of the name, and the memory size in rows of sixteen words less one. -/
opaque tableRows : List (BitVec 9 × Char × String × Fin 4095)
/-- By how much `PROGRAM_MEMORY_SIZE` exceeds `0x2008`, the least value R8 admits (D27). -/
opaque programMemoryExtra : Nat
/-- The position of the LVP bit in the fuse word (R8, D26). -/
opaque lvpBit : Fin 14
/-- The level of the DATA wire where the spec leaves it to the environment (R65, D19): the n-th such
level of a run is `freeBit n`. -/
opaque freeBit : Nat → Bool

/-- The row that one entry of `tableRows` spells. -/
def rowOf (e : BitVec 9 × Char × String × Fin 4095) : Row where
  deviceId := e.1
  name := String.singleton e.2.1 ++ e.2.2.1
  codeMemorySize := BitVec.ofNat 16 (16 * (e.2.2.2.val + 1))

end Config

/-- The parameters of the machine after reset: the defaults of R8 where it gives one (PRESUMED or the
source's approximate figure, log entries 1 to 4) and opaque constants where it says OPEN. -/
def Params.default : Params where
  codes := Codes.default
  key := 0x4D434850
  idIncrements := 6
  tSetup := 1
  tHold := 1
  tCo := Config.tCo
  tDly := Config.tDly
  tEntHigh := Config.tEntHigh
  tEntLow := Config.tEntLow
  tErase := 5000
  tProg := 2500
  tProgCfg := 5000
  table := Config.tableRows.map Config.rowOf
  programMemorySize := 0x2008 + Config.programMemoryExtra
  lvpMask := 1#14 <<< Config.lvpBit.val

end Sys2Proof
end

