-- ==== Sys2Proof/Syntax.lean ====
section
/-! DEFINITION. The instructions, one constructor per row of spec/opcode_table.json, and the encoded
words they are read from (30_encoding.md R80 to R95). -/

namespace Sys2Proof

/-- One row of the opcode table with its operands. The first nine are the host operations of R91 and
R92, the next eight the ICSP commands of R166, the last four the frames and the ID word of R84, R86,
R88 and R89. -/
inductive Instr where
  /-- `SENDCMD cmd, postDelay` (R112). -/
  | sendcmd (cmd : Code) (postDelay : BitVec 32)
  /-- `WRDATA word` (R114). -/
  | wrdata (word : Word)
  /-- `RDDATA` (R116). -/
  | rddata
  /-- `ENTER` (R130). -/
  | enter
  /-- `EXIT` (R134). -/
  | exit
  /-- `RSTADDR` (R136). -/
  | rstaddr
  /-- `INCADDR` (R138). -/
  | incaddr
  /-- `RDDEVID` (R140). -/
  | rddevid
  /-- A reserved operation select, `0x8` to `0xF` (R92). -/
  | reservedOp (op : BitVec 4)
  /-- load-config (R170). -/
  | loadConfig
  /-- load-for-program (R171). -/
  | loadForProgram
  /-- read-from-program (R173). -/
  | readFromProgram
  /-- increment (R172). -/
  | incrementAddress
  /-- begin-timed-program (R174), for a code row or, with `fuseWord`, for the fuse word. -/
  | beginTimedProgram (fuseWord : Bool)
  /-- bulk-erase (R175). -/
  | bulkErase
  /-- reset-address (R168). -/
  | resetAddress
  /-- Any other 6-bit code, with the post-delay "as given" (R166, R176). -/
  | otherCommand (cmd : Code) (postDelay : BitVec 32)
  /-- A data-out frame: stop-bit slot and payload (R84). -/
  | dataOutFrame (stop : Bool) (payload : Payload)
  /-- A data-in frame as sampled: last slot, payload, framing bit (R86). -/
  | dataInFrame (last : Bool) (payload : Payload) (first : Bool)
  /-- The key frame (R88). -/
  | keyFrame
  /-- A device-ID word: ignored bits, device ID, revision (R89). -/
  | idWord (ignored : BitVec 2) (deviceId : BitVec 9) (deviceRev : BitVec 5)
deriving DecidableEq, Repr

/-- An encoded word of one of the table's formats (R95). The format is not among the bits: "the wire
carries no marker of the frame kind" (R80), so the word carries it beside them.
* `hostop`: the 52-bit request `OP ++ ARG ++ DLY` (R91, R95).
* `cmd6`: a command code and one operand word. The table gives the operand no bits; the model reads
  it as the post-delay of an unnamed code and, in bit 0, as the choice of begin-timed-program between
  code row (0) and fuse word (1) (DESIGN CHOICE, log entry 6).
* `dout16`, `din16`, `key33`, `idword16`: the layouts of R84, R86, R88, R89. -/
inductive Encoded where
  | hostop (w : BitVec 52)
  | cmd6 (code : Code) (operand : BitVec 32)
  | dout16 (w : BitVec 16)
  | din16 (w : BitVec 16)
  | key33 (w : BitVec 33)
  | idword16 (w : BitVec 16)
deriving DecidableEq, Repr

end Sys2Proof
end

