-- ==== Sys2Proof/WellFormed.lean ====
section
/-! DEFINITION. Which instructions the encodings can express: the two rows of the table whose operand
is constrained. -/

namespace Sys2Proof

/-- A reserved operation select is one of `0x8` to `0xF` (R92); an "other command" carries a code that
is none of the seven (R176). Every other instruction is well formed. -/
def Instr.wellFormed (c : Codes) : Instr → Bool
  | .sendcmd _ _ => true
  | .wrdata _ => true
  | .rddata => true
  | .enter => true
  | .exit => true
  | .rstaddr => true
  | .incaddr => true
  | .rddevid => true
  | .reservedOp op => decide (8#4 ≤ op)
  | .loadConfig => true
  | .loadForProgram => true
  | .readFromProgram => true
  | .incrementAddress => true
  | .beginTimedProgram _ => true
  | .bulkErase => true
  | .resetAddress => true
  | .otherCommand cmd _ => decide (cmd ∉ c.toList)
  | .dataOutFrame _ _ => true
  | .dataInFrame _ _ _ => true
  | .keyFrame => true
  | .idWord _ _ _ => true

end Sys2Proof
end

