-- ==== Sys2Proof/Decode.lean ====
section
/-! DEFINITION. The decoder, total on every encoded word of every format and rejecting by name, the
encoder, and the decoder on words numbered as spec/opcode_table.json numbers them. -/

namespace Sys2Proof

/-- Why a word is no encoding of any row of the table. -/
inductive DecodeError where
  /-- A data-out word whose start bit `F[0]` is 1 (R84). -/
  | startBitSet
  /-- A 33-bit word that is not `KEY` with a 0 in the additional slot (R88). -/
  | notTheKey
deriving DecidableEq, Repr

/-! ### Fields of the host request `OP ++ ARG ++ DLY` (R91, R95) -/

/-- `OP`, request bits 51:48. -/
def hostOp (w : BitVec 52) : BitVec 4 := w.extractLsb' 48 4
/-- `ARG`, request bits 47:32. -/
def hostArg (w : BitVec 52) : Word := w.extractLsb' 32 16
/-- `ARG[5:0]`, request bits 37:32. -/
def hostCmd (w : BitVec 52) : Code := w.extractLsb' 32 6
/-- `DLY`, request bits 31:0. -/
def hostDly (w : BitVec 52) : BitVec 32 := w.extractLsb' 0 32

/-- The request with the given fields. -/
def hostRequest (op : BitVec 4) (arg : Word) (dly : BitVec 32) : BitVec 52 := op ++ arg ++ dly

/-- The operation a host request names (R91, R92). -/
def decodeHostop (w : BitVec 52) : Instr :=
  match (hostOp w).toNat with
  | 0 => .sendcmd (hostCmd w) (hostDly w)
  | 1 => .wrdata (hostArg w)
  | 2 => .rddata
  | 3 => .enter
  | 4 => .exit
  | 5 => .rstaddr
  | 6 => .incaddr
  | 7 => .rddevid
  | _ => .reservedOp (hostOp w)

/-- The command a 6-bit code names; the catch-all row applies only when no other matches (R95). -/
def decodeCmd6 (c : Codes) (code : Code) (operand : BitVec 32) : Instr :=
  if code = c.loadConfig then .loadConfig
  else if code = c.loadForProgram then .loadForProgram
  else if code = c.readFromProgram then .readFromProgram
  else if code = c.incrementAddress then .incrementAddress
  else if code = c.beginTimedProgram then .beginTimedProgram (operand.getLsbD 0)
  else if code = c.bulkErase then .bulkErase
  else if code = c.resetAddress then .resetAddress
  else .otherCommand code operand

/-- The 33 bits of the key frame as one number: `KEY` below a 0 for the additional pulse (R88, D6). -/
def keyFrameWord (key : BitVec 32) : BitVec 33 := 0#1 ++ key

/-- The decoder: total, and every rejection has a name. -/
def decode (p : Params) : Encoded → Except DecodeError Instr
  | .hostop w => .ok (decodeHostop w)
  | .cmd6 code operand => .ok (decodeCmd6 p.codes code operand)
  | .dout16 w =>
    if w.getLsbD 0 then .error .startBitSet
    else .ok (.dataOutFrame (w.getLsbD 15) (w.extractLsb' 1 14))
  | .din16 w => .ok (.dataInFrame (w.getLsbD 15) (w.extractLsb' 1 14) (w.getLsbD 0))
  | .key33 w => if w = keyFrameWord p.key then .ok .keyFrame else .error .notTheKey
  | .idword16 w => .ok (.idWord (w.extractLsb' 14 2) (w.extractLsb' 5 9) (w.extractLsb' 0 5))

/-- The encoder, from the same tables; bits the spec calls ignored are written 0. -/
def encode (p : Params) : Instr → Encoded
  | .sendcmd cmd d => .hostop (hostRequest 0 (cmd.setWidth 16) d)
  | .wrdata word => .hostop (hostRequest 1 word 0)
  | .rddata => .hostop (hostRequest 2 0 0)
  | .enter => .hostop (hostRequest 3 0 0)
  | .exit => .hostop (hostRequest 4 0 0)
  | .rstaddr => .hostop (hostRequest 5 0 0)
  | .incaddr => .hostop (hostRequest 6 0 0)
  | .rddevid => .hostop (hostRequest 7 0 0)
  | .reservedOp op => .hostop (hostRequest op 0 0)
  | .loadConfig => .cmd6 p.codes.loadConfig 0
  | .loadForProgram => .cmd6 p.codes.loadForProgram 0
  | .readFromProgram => .cmd6 p.codes.readFromProgram 0
  | .incrementAddress => .cmd6 p.codes.incrementAddress 0
  | .beginTimedProgram f => .cmd6 p.codes.beginTimedProgram (if f then 1 else 0)
  | .bulkErase => .cmd6 p.codes.bulkErase 0
  | .resetAddress => .cmd6 p.codes.resetAddress 0
  | .otherCommand cmd d => .cmd6 cmd d
  | .dataOutFrame stop w => .dout16 (BitVec.ofBool stop ++ w ++ 0#1)
  | .dataInFrame last w first => .din16 (BitVec.ofBool last ++ w ++ BitVec.ofBool first)
  | .keyFrame => .key33 (keyFrameWord p.key)
  | .idWord x i r => .idword16 (x ++ i ++ r)

/-! ### Words numbered as the opcode table numbers them

The table's `match` and `mask` of a HOSTOP row stand on the 4-bit `OP` as the FIRST word of the request
(R95: "with the 4-bit OP as match"), so in its numbering `OP` is bits 3:0, `ARG` follows as bits 19:4
and `DLY` as bits 51:20. The table does not say a row's format among the bits; it is read off the
length (DESIGN CHOICE, log entry 7). -/

/-- The host request with the table's numbering of its bits. -/
def hostopOfTable (w : Nat) : BitVec 52 :=
  hostRequest (BitVec.ofNat 4 w) (BitVec.ofNat 16 (w / 2 ^ 4)) (BitVec.ofNat 32 (w / 2 ^ 20))

/-- The encoded word that `nbits` bits of the table's numbering stand for. Up to 8 bits: one of the
seven named codes if it is one, else the `OP` of a request with operands of zeros if it fits 4 bits,
else a code. Up to 16: a data-out frame if the start bit is 0, else a data-in frame. Up to 40: a key
frame. Longer: a host request.

The table gives the operand of a command row (the post-delay of R176's "any other code", the choice of
R174) no bits. Where it stands in this numbering is a DESIGN CHOICE (log entries 6 and 7): it is what
stands above bit 5, `w / 2 ^ 6`, so a named code with no bit above its six has operand 0. Bits above the
width of any other format are dropped. -/
def Encoded.ofTableWord (nbits w : Nat) : Encoded :=
  if nbits ≤ 8 then
    if w < 64 ∧ BitVec.ofNat 6 w ∈ Codes.default.toList then .cmd6 (BitVec.ofNat 6 w) 0
    else if w < 16 then .hostop (hostopOfTable w)
    else .cmd6 (BitVec.ofNat 6 w) (BitVec.ofNat 32 (w / 2 ^ 6))
  else if nbits ≤ 16 then
    if w % 2 = 0 then .dout16 (BitVec.ofNat 16 w) else .din16 (BitVec.ofNat 16 w)
  else if nbits ≤ 40 then .key33 (BitVec.ofNat 33 w)
  else .hostop (hostopOfTable w)

/-- The instruction the decoder reads from a word in the table's numbering. -/
def decodeTableWord (nbits w : Nat) : Option Instr :=
  (decode Params.default (Encoded.ofTableWord nbits w)).toOption

end Sys2Proof
end

