-- ==== Sys2Proof/Machine/State.lean ====
section
/-! DEFINITION. The state of the machine as plain data (10_state.md R20 to R35, 20_memory.md R50 to R56
and R70), its faults and refusals, and the state after reset. -/

namespace Sys2Proof.Machine

/-! ### Pins and their trace (R10, R21) -/

/-- The direction of a pin (R21). -/
inductive Dir where
  | input
  | output
deriving DecidableEq, Repr

/-- The three pins (R10, R55). -/
inductive Pin where
  | mclr
  | clk
  | data
deriving DecidableEq, Repr

/-- `DIR[p]` and `LVL[p]` of one pin (R21). -/
structure PinReg where
  dir : Dir
  lvl : Level
deriving DecidableEq, Repr

/-- The pin registers of R21. -/
structure Pins where
  mclr : PinReg
  clk : PinReg
  data : PinReg
deriving DecidableEq, Repr

/-- One executed pin primitive (R10). A sample carries the level it returned. -/
inductive PinEvent where
  | dir (p : Pin) (d : Dir)
  | set (p : Pin) (v : Level)
  | sample (p : Pin) (b : Level)
  | delay (t : Nat)
deriving DecidableEq, Repr

/-! ### Sparse word memories (R50) -/

/-- Words by word address, addresses strictly rising. There is no byte-addressed memory in the block
(R50), so a cell is one word. -/
abbrev Sparse (w : Nat) := List (Nat × BitVec w)

/-- The memory of a target (R52, R70): an address that is not listed reads as `BLANK`. -/
abbrev Memory := Sparse 14

/-- The Memory Image (R56): the filled pairs; an address that is not listed is unfilled. -/
abbrev Image := Sparse 16

/-! ### The target on the other end of the wires (R20c, R65, R70) -/

/-- Where the reference target stands in the frames it receives (R70, R71). `T_MODE` is 1 in the last
three. -/
inductive TargetPhase where
  /-- Not in programming mode, MCLR not seen high. -/
  | off
  /-- Not in programming mode, MCLR is high. -/
  | mclrHigh
  /-- MCLR is low after it was high: the levels of the key pulses so far. -/
  | keyPulses (bits : List Bool)
  /-- Programming mode: the bits of a command so far. -/
  | command (bits : List Bool)
  /-- Programming mode: the bits so far of the data frame after load-config (`true`) or
  load-for-program (`false`). -/
  | dataOut (config : Bool) (bits : List Bool)
  /-- Programming mode: the frame being driven and the number of its bits already clocked. -/
  | dataIn (frame : Word) (pos : Nat)
deriving DecidableEq, Repr

/-- The informative reference target (R70): `T_PC`, `T_MEM`, `T_LATCH`, `T_LOADED` and its position in
the frames. -/
structure RefTarget where
  pc : BitVec 16
  mem : Memory
  latch : Vector Payload 16
  loaded : BitVec 16
  phase : TargetPhase
deriving DecidableEq, Repr

/-- The target as the block meets it. Normatively an oracle (R65): the levels it will answer, next
first, and after them free values, numbered by `drawn`. With `ref` it is the reference target of R70
to R76 instead. The three fields are the MODEL's own. -/
structure Target where
  answers : List Bool
  drawn : Nat
  ref : Option RefTarget
deriving DecidableEq, Repr

/-- The block's side of the wires: pin registers (R21), trace (R10), and what answers at the other end. -/
structure Wire where
  pins : Pins
  trace : List PinEvent
  target : Target
deriving DecidableEq, Repr

/-! ### Registers -/

/-- `TXW`, `RXW`, `BITCNT`, `RES` (R22). -/
structure DataPath where
  txw : BitVec 32
  rxw : Word
  bitcnt : BitVec 6
  res : Word
deriving DecidableEq, Repr

/-- The states of the session state machine (R24). -/
inductive Session where
  | unpowered
  | entryShift
  | programMode
  | exitingMode
deriving DecidableEq, Repr

/-- `PHASE` (R27): an operation is one step here, so of the position inside it only idle or running is
kept. -/
inductive Phase where
  | idle
  | running
deriving DecidableEq, Repr

/-- `SESSION` (R24), `AP` and `AP_KNOWN` (R25), `PHASE` (R27). -/
structure Sequencer where
  session : Session
  ap : BitVec 16
  apKnown : Bool
  phase : Phase
deriving DecidableEq, Repr

/-- `RD_VALID`, `RD_NAME`, `RD_SIZE`, `RD_REV`, `RD_ID` (R28). -/
structure ResolvedDevice where
  valid : Bool
  name : String
  size : Word
  rev : BitVec 5
  id : BitVec 9
deriving DecidableEq, Repr

/-- The values of `STATUS` (R29, R215). -/
inductive Status where
  | ok
  | deviceNotRecognized
  | notBlank
  | verifyMismatch
  | illegalOp
deriving DecidableEq, Repr

/-- The session flags, host configuration (R30). -/
structure HostFlags where
  debug : Bool
  client : Bool
  noverify : Bool
deriving DecidableEq, Repr

/-- The response to a host request: `{STATUS, RES}` (R91). -/
structure Response where
  status : Status
  res : Word
deriving DecidableEq, Repr

/-- The state of the machine. `params` holds what R33 calls parameters of the step: no operation
writes it. `requests` and `responses` are the host's side of R91: what it has asked for and not yet
got, next first, and what it has been answered, oldest first. `resetPending` is the reset input, "of
unspecified cause" (R230): while it is set, the next step is the block's reset (log entry 23). -/
structure State where
  params : Params
  requests : List Encoded
  responses : List Response
  wire : Wire
  data : DataPath
  seq : Sequencer
  dev : ResolvedDevice
  status : Status
  imgAlloc : Bool
  image : Image
  flags : HostFlags
  resetPending : Bool
deriving DecidableEq, Repr

/-! ### Stops -/

/-- The faults of a step. There is none: "The block has no traps in the processor sense"
(60_exceptions.md), its failures are values of `STATUS` after which it is idle again (R219, R221), and
no operation is refused for the state it is requested in (R218). -/
inductive Fault where
deriving DecidableEq, Repr

/-- The refusals of a step. -/
inductive Refusal where
  /-- Raised by an arm of `exec` for an instruction without a meaning. Safe: nothing is claimed of it. -/
  | notModelled (mnemonic : String)
  /-- Raised by `step` when the next encoded word is no encoding of any row of the table: a data-out
  word with its start bit set, a key word other than the key. The block never forms one (R84, R88).
  Safe: the machine stops where the spec describes no machine going on. -/
  | notAnEncoding (why : DecodeError)
deriving DecidableEq, Repr

/-! ### Reset (R35, R230) -/

/-- The pin registers after reset and after `EXIT` (R35, R232). -/
def Pins.reset : Pins where
  mclr := ⟨.input, false⟩
  clk := ⟨.output, false⟩
  data := ⟨.output, false⟩

/-- The machine after its first reset (R35, R230); a later one is `State.blockReset`. `TXW`, `RXW`,
`BITCNT`, `RES` and `AP`, which R35 leaves unspecified, are 0 (DESIGN CHOICE, unsafe, log entry 8); the
target is the oracle with nothing queued. -/
def State.reset : State where
  params := Params.default
  requests := []
  responses := []
  wire := { pins := Pins.reset, trace := [], target := { answers := [], drawn := 0, ref := none } }
  data := { txw := 0, rxw := 0, bitcnt := 0, res := 0 }
  seq := { session := .unpowered, ap := 0, apKnown := false, phase := .idle }
  dev := { valid := false, name := "", size := 0, rev := 0, id := 0 }
  status := .ok
  imgAlloc := false
  image := []
  flags := { debug := false, client := false, noverify := false }
  resetPending := false

end Sys2Proof.Machine
end

