-- ==== Sys2Proof/Machine/Memory.lean ====
section
/-! DEFINITION. The sparse word memories: the target's memory (R51, R52, R70) and the Memory Image
(R56), each with its canonical form and its read and write. -/

namespace Sys2Proof.Machine

/-- The addresses are strictly rising. -/
def Sparse.rising {w : Nat} : Sparse w → Bool
  | [] => true
  | c :: m => (m.all fun d => c.1 < d.1) && Sparse.rising m

/-- The word listed at an address. -/
def Sparse.find {w : Nat} : Sparse w → Nat → Option (BitVec w)
  | [], _ => none
  | c :: m, a => if c.1 = a then some c.2 else Sparse.find m a

/-- List a word at an address, keeping the order. -/
def Sparse.put {w : Nat} : Sparse w → Nat → BitVec w → Sparse w
  | [], a, v => [(a, v)]
  | c :: m, a, v =>
    if a < c.1 then (a, v) :: c :: m
    else if a = c.1 then (a, v) :: m
    else c :: Sparse.put m a v

/-- Take an address out of the list. -/
def Sparse.drop {w : Nat} (m : Sparse w) (a : Nat) : Sparse w := m.filter fun c => c.1 ≠ a

/-! ### The target's memory -/

/-- What an address of the target's memory reads as that is not listed: `BLANK`, the erased value
(R51), which R73 also gives every address outside `T_MEM`'s domain. -/
def Memory.unlisted : Payload := blank

/-- The canonical form: addresses strictly rising and inside `0 … 0x2007` (R70), no blank entry. -/
def Memory.wf (m : Memory) : Bool :=
  Sparse.rising m && m.all fun c => decide (c.1 ≤ fuseAddr) && decide (c.2 ≠ Memory.unlisted)

/-- `MemRead(a, 14)` (R11, R73). -/
def Memory.read (m : Memory) (a : Nat) : Payload := (Sparse.find m a).getD Memory.unlisted

/-- `MemWrite(a, 14, v)` (R11). An address outside `T_MEM`'s domain `0 … 0x2007` is left alone
(DESIGN CHOICE, log entry 14). -/
def Memory.write (m : Memory) (a : Nat) (v : Payload) : Memory :=
  if fuseAddr < a then m
  else if v = Memory.unlisted then Sparse.drop m a
  else Sparse.put m a v

/-- Bulk erase of the reference target: `0 … 0x1FFF` and `0x2007` become `BLANK` (R76). -/
def Memory.bulkErase (m : Memory) : Memory :=
  m.filter fun c => decide (0x1FFF < c.1) && decide (c.1 ≠ fuseAddr)

/-! ### The Memory Image -/

/-- The canonical form of an image with `size` pairs: addresses strictly rising and inside it (R56). -/
def Image.wf (size : Nat) (m : Image) : Bool :=
  Sparse.rising m && m.all fun c => decide (c.1 < size)

/-- `filled[a]` (R56). -/
def Image.filled (m : Image) (a : Nat) : Bool := (Sparse.find m a).isSome

/-- `location[a]`, with `0x3FFF` substituted when the pair is unfilled (R56, D18). -/
def Image.location (m : Image) (a : Nat) : Word := (Sparse.find m a).getD payloadMask

/-- `location[a] <- v; filled[a] <- true`, for an address inside the image's `size` pairs (R56). -/
def Image.fill (size : Nat) (m : Image) (a : Nat) (v : Word) : Image :=
  if a < size then Sparse.put m a v else m

end Sys2Proof.Machine
end

