-- ==== Sys2Proof/Machine/Operands.lean ====
section
/-! DEFINITION. The block's whole arithmetic (R117): framing and unframing of data words, the fields of
the device-ID word, and the levels that stand for a number in a frame. -/

namespace Sys2Proof.Machine

/-- Data-out framing `F = (word << 1) mod 2^16` (R85). -/
def frameWord (word : Word) : Word := word <<< 1

/-- Data-in unframing `RES = RXW >> 1`, logical (R87). -/
def unframeWord (rxw : Word) : Word := rxw >>> 1

/-- The word whose framing is the data-out frame with the given slots (R84, R85). -/
def wordOfFrame (stop : Bool) (payload : Payload) : Word := 0#1 ++ BitVec.ofBool stop ++ payload

/-- The raw data-in word with the given slots (R86). -/
def rawOfFrame (last : Bool) (payload : Payload) (first : Bool) : Word :=
  BitVec.ofBool last ++ payload ++ BitVec.ofBool first

/-- The device-ID word with the given fields (R89). -/
def idWordOf (ignored : BitVec 2) (deviceId : BitVec 9) (deviceRev : BitVec 5) : Word :=
  ignored ++ deviceId ++ deviceRev

/-- `(W >> 5) & 0x1FF`, as nine bits (R152). -/
def deviceIdOf (w : Word) : BitVec 9 := ((w >>> 5) &&& 0x1FF#16).setWidth 9

/-- `W & 0x1F`, as five bits (R152). -/
def deviceRevOf (w : Word) : BitVec 5 := (w &&& 0x1F#16).setWidth 5

/-- `w` with bit `i` replaced by `b`: `x[RXW][i] <- b` (R116). -/
def setBit (w : Word) (i : Nat) (b : Bool) : Word :=
  (w &&& ~~~(1#16 <<< i)) ||| ((BitVec.ofBool b).setWidth 16 <<< i)

/-- The number whose bits, least significant first, are `bs` (R57). -/
def ofBitsLsbFirst (w : Nat) : List Bool → BitVec w
  | [] => 0
  | b :: bs => (ofBitsLsbFirst w bs <<< 1) ||| (BitVec.ofBool b).setWidth w

/-- The byte address of a word index in `blankCheck`'s report (R58). -/
def reportAddress (wordIndex : Nat) : Nat := 2 * wordIndex

end Sys2Proof.Machine
end

