-- ==== Sys2Proof/Machine/Flags.lean ====
section
/-! DEFINITION. `STATUS`, the block's only flag field: "there are no arithmetic condition codes … no
operation computes one" (R29). How an operation begins and ends, and the response. -/

namespace Sys2Proof.Machine

/-- The numbers of `STATUS` (R215). -/
def Status.code : Status → BitVec 3
  | .ok => 0
  | .deviceNotRecognized => 1
  | .notBlank => 2
  | .verifyMismatch => 3
  | .illegalOp => 4

/-- The codes of `SESSION` (R24). -/
def Session.code : Session → BitVec 2
  | .unpowered => 0
  | .entryShift => 1
  | .programMode => 2
  | .exitingMode => 3

/-- An operation starts: `PHASE` leaves idle (R27). -/
def State.begin (s : State) : State := { s with seq := { s.seq with phase := .running } }

/-- An operation ends: `STATUS` holds its outcome and the block is idle (R27, R29). -/
def State.finish (o : Status) (s : State) : State :=
  { s with status := o, seq := { s.seq with phase := .idle } }

/-- The host reads the result of its request: `STATUS` and the response field `RES` (R91). -/
def State.respond (res : Word) (s : State) : State :=
  { s with responses := s.responses ++ [⟨s.status, res⟩] }

end Sys2Proof.Machine
end

