-- ==== Sys2Proof/Machine/Target.lean ====
section
/-! DEFINITION. The pins as registers and wires (R10, R21) and what stands at the other end of them: the
oracle of R65 and the informative reference target of R70 to R76. -/

namespace Sys2Proof.Machine

/-! ### Pins -/

/-- The register of a pin. -/
def Pins.get (ps : Pins) : Pin → PinReg
  | .mclr => ps.mclr
  | .clk => ps.clk
  | .data => ps.data

/-- The pins with the register of one pin replaced. -/
def Pins.put (ps : Pins) (r : PinReg) : Pin → Pins
  | .mclr => { ps with mclr := r }
  | .clk => { ps with clk := r }
  | .data => { ps with data := r }

/-- What a pin event does to the pin registers: `PinDir` writes `DIR`, `PinSet` writes `LVL`, the level
survives a change of direction (R10, R21). -/
def Pins.apply (ps : Pins) : PinEvent → Pins
  | .dir p d => ps.put { ps.get p with dir := d } p
  | .set p v => ps.put { ps.get p with lvl := v } p
  | .sample _ _ => ps
  | .delay _ => ps

/-- The level the block puts on a wire: its latched level while the pin is an output, else none (R21). -/
def PinReg.driven (r : PinReg) : Option Level :=
  match r.dir with
  | .output => some r.lvl
  | .input => none

/-! ### Reference target (R70 to R76) -/

/-- `T_MODE` (R70). -/
def RefTarget.mode (t : RefTarget) : Bool :=
  match t.phase with
  | .off => false
  | .mclrHigh => false
  | .keyPulses _ => false
  | .command _ => true
  | .dataOut _ _ => true
  | .dataIn _ _ => true

/-- The frame driven after read-from-program: `0b0 ++ MemRead(T_PC, 14) ++ 0b0` (R73). -/
def RefTarget.readFrame (t : RefTarget) : Word := 0#1 ++ t.mem.read t.pc.toNat ++ 0#1

/-- load-for-program with frame `f`: the payload goes to the latch of the pointer's row offset (R74). -/
def RefTarget.loadLatch (t : RefTarget) (f : Word) : RefTarget :=
  { t with
    latch := t.latch.set (t.pc.toNat % 16) (f.extractLsb' 1 14) (Nat.mod_lt _ (by decide))
    loaded := t.loaded ||| (1#16 <<< (t.pc.toNat % 16)) }

/-- Program one word of the pointer's row if its latch is loaded: the stored word and the latch, bit by
bit (R75). -/
def RefTarget.programWord (t : RefTarget) (m : Memory) (j : Fin 16) : Memory :=
  let a := t.pc.toNat - t.pc.toNat % 16 + j.val
  if t.loaded.getLsbD j.val then m.write a (m.read a &&& t.latch[j.val]) else m

/-- begin-timed-program: every loaded latch of the pointer's row is programmed and unloaded (R75). -/
def RefTarget.programRow (t : RefTarget) : RefTarget :=
  { t with mem := (List.finRange 16).foldl t.programWord t.mem, loaded := 0 }

/-- A whole command has been received (R72 to R76). A code that is none of the seven changes nothing
(DESIGN CHOICE, log entry 14). -/
def RefTarget.command (c : Codes) (t : RefTarget) (code : Code) : RefTarget :=
  let t := { t with phase := .command [] }
  if code = c.resetAddress then { t with pc := 0 }
  else if code = c.incrementAddress then { t with pc := t.pc + 1 }
  else if code = c.loadConfig then { t with phase := .dataOut true [] }
  else if code = c.loadForProgram then { t with phase := .dataOut false [] }
  else if code = c.readFromProgram then { t with phase := .dataIn t.readFrame 0 }
  else if code = c.beginTimedProgram then t.programRow
  else if code = c.bulkErase then { t with mem := t.mem.bulkErase, loaded := 0 }
  else t

/-- A whole data-out frame has been received after load-config (R72) or load-for-program (R74). -/
def RefTarget.dataFrame (t : RefTarget) (config : Bool) (f : Word) : RefTarget :=
  let t := { t with phase := .command [] }
  if config then { t with pc := configBase } else t.loadLatch f

/-- Thirty-three pulses have been seen: programming mode if the first 32 levels are the key (R71). -/
def RefTarget.keyReceived (key : BitVec 32) (t : RefTarget) (bits : List Bool) : RefTarget :=
  if bits.take keyBits = bitsLsbFirst key keyBits then
    { t with phase := .command [], pc := 0, loaded := 0 }
  else { t with phase := .off }

/-- A falling clock edge with a level on DATA: frames are decoded by counting these edges (R70). -/
def RefTarget.clockFall (p : Params) (t : RefTarget) (b : Level) : RefTarget :=
  match t.phase with
  | .off => t
  | .mclrHigh => t
  | .keyPulses bits =>
    if bits.length + 1 = keyBits + 1 then t.keyReceived p.key (bits ++ [b])
    else { t with phase := .keyPulses (bits ++ [b]) }
  | .command bits =>
    if bits.length + 1 = cmdBits then t.command p.codes (ofBitsLsbFirst 6 (bits ++ [b]))
    else { t with phase := .command (bits ++ [b]) }
  | .dataOut config bits =>
    if bits.length + 1 = dataBits then t.dataFrame config (ofBitsLsbFirst 16 (bits ++ [b]))
    else { t with phase := .dataOut config (bits ++ [b]) }
  | .dataIn frame pos =>
    if pos + 1 = dataBits then { t with phase := .command [] }
    else { t with phase := .dataIn frame (pos + 1) }

/-- The MCLR wire as the target sees it after an event: high arms the entry, low after high starts the
key pulses, and whenever it is not driven low programming mode ends (R71). -/
def RefTarget.seeMclr (t : RefTarget) : Option Level → RefTarget
  | none => { t with phase := .off }
  | some true => { t with phase := .mclrHigh }
  | some false => if t.phase = .mclrHigh then { t with phase := .keyPulses [] } else t

/-- What the reference target answers to a sample: 1 outside programming mode (R71), the bit of the
frame it drives (R73), and nothing the spec states at any other time. -/
def RefTarget.answer (t : RefTarget) : Option Level :=
  match t.phase with
  | .off => some true
  | .mclrHigh => some true
  | .keyPulses _ => some true
  | .command _ => none
  | .dataOut _ _ => none
  | .dataIn frame pos => some (frame.getLsbD pos)

/-! ### The other end of the wires -/

/-- A level nobody drives and the spec does not state: a free value. -/
def Target.free (t : Target) : Level × Target :=
  (Config.freeBit t.drawn, { t with drawn := t.drawn + 1 })

/-- What the target answers to `PinSample(DATA)` (R65): the next queued level, or a free value when
none is queued; under the reference target what R71 and R73 say, else a free value. -/
def Target.answer (t : Target) : Level × Target :=
  match t.ref with
  | none =>
    match t.answers with
    | b :: bs => (b, { t with answers := bs })
    | [] => t.free
  | some r =>
    match r.answer with
    | some b => (b, t)
    | none => t.free

/-- The falling edge of the clock wire between two pin states. -/
def clockFalls (before after : Pins) : Bool :=
  before.clk.driven = some true && after.clk.driven = some false

/-- What a pin event means to the target: nothing to the oracle; the reference target sees the MCLR
wire and, at a falling clock edge, the DATA wire (R70, R71). An undriven DATA wire has a free level. -/
def Target.observe (p : Params) (before after : Pins) (t : Target) : Target :=
  match t.ref with
  | none => t
  | some r =>
    let r := r.seeMclr after.mclr.driven
    if clockFalls before after then
      match after.data.driven with
      | some b => { t with ref := some (r.clockFall p b) }
      | none => { (Target.free t).2 with ref := some (r.clockFall p (Target.free t).1) }
    else { t with ref := some r }

end Sys2Proof.Machine
end

