-- ==== Sys2Proof/Machine/Ops.lean ====
section
/-! DEFINITION. The shared operations: pin events (R10), the two per-bit waveforms (R110, R111), the
three bit-link primitives (R112, R114, R116), the shadow pointer (R167 to R176), the sequencer
operations (R130 to R140), the lookup (R152 to R155), raising a failure (R219), taking the next
request (R221) and the block's reset (R230, R231). -/

namespace Sys2Proof.Machine

/-! ### Failures: raising one and going on after it -/

/-- `raise <Failure>` (R11, R219): the operation ends with the failure's code in `STATUS`, its information
in the registers the operation wrote. No state is saved, there is no handler, no vector and no mode. -/
def State.raise (failure : Status) (s : State) : State := s.finish failure

/-- The next request and the machine with it taken (R91); none when the host asks for nothing. This is
also all there is to returning from a failure: "There is no return instruction: after a failure the block
is idle and accepts the next request like after any operation" (R221). -/
def fetch (s : State) : Option (Encoded × State) :=
  match s.requests with
  | [] => none
  | e :: es => some (e, { s with requests := es })

/-! ### The block's reset -/

/-- The block's reset (R230): everything the table of R35 lists takes the value it has in `State.reset`,
the trace starts empty, and nothing else changes. "The target is not reset by the block's reset. Its
pointer, its mode and its memory are whatever they were" (R231); the parameters are fixed (R238), the
request port and the Memory Image are the host's (R31, R91; log entry 23). -/
def State.blockReset (s : State) : State :=
  { s with
    wire := { State.reset.wire with target := s.wire.target }
    data := State.reset.data
    seq := State.reset.seq
    dev := State.reset.dev
    status := State.reset.status
    imgAlloc := State.reset.imgAlloc
    flags := State.reset.flags
    resetPending := false }

/-! ### Pin events -/

/-- One pin event happens: it joins the trace, the pin registers follow it, the target sees it (R10,
R60). -/
def Wire.emit (p : Params) (w : Wire) (e : PinEvent) : Wire where
  pins := w.pins.apply e
  trace := w.trace ++ [e]
  target := w.target.observe p w.pins (w.pins.apply e)

/-- `trace += [e1, e2, …]` (R11). -/
def Wire.emitAll (p : Params) (w : Wire) (es : List PinEvent) : Wire := es.foldl (Wire.emit p) w

/-- `trace += [e1, e2, …]` on the machine (R11). -/
def State.emitAll (es : List PinEvent) (s : State) : State :=
  { s with wire := s.wire.emitAll s.params es }

/-- `PinSample(DATA)` (R10, R21): while the block drives DATA the wire carries its own level, else the
level is `forced` where an instruction gives it (R86) and the target's answer where none does (R65). -/
def Wire.sample (p : Params) (w : Wire) (forced : Option Level) : Level × Wire :=
  match w.pins.data.driven with
  | some b => (b, w.emit p (.sample .data b))
  | none =>
    match forced with
    | some b => (b, w.emit p (.sample .data b))
    | none => (w.target.answer.1, Wire.emit p { w with target := w.target.answer.2 }
        (.sample .data w.target.answer.1))

/-! ### The per-bit waveforms -/

/-- `ShiftOutBit(b)` (R110). -/
def shiftOutBit (p : Params) (b : Level) : List PinEvent :=
  [.set .clk true, .set .data b, .delay p.tSetup, .set .clk false, .delay p.tHold]

/-- `for i in 0..n-1: ShiftOutBit(v[i])`. -/
def shiftOutBits (p : Params) {w : Nat} (v : BitVec w) (n : Nat) : List PinEvent :=
  (bitsLsbFirst v n).flatMap (shiftOutBit p)

/-- `ShiftInBit()` (R111). -/
def Wire.shiftInBit (p : Params) (w : Wire) (forced : Option Level) : Level × Wire :=
  let w := w.emitAll p [.set .clk true, .delay p.tCo]
  let r := w.sample p forced
  (r.1, r.2.emitAll p [.set .clk false, .delay p.tHold])

/-- `for i in 0..n-1: b <- ShiftInBit(); x[RXW][i] <- b`, from `RXW = 0` (R116): the assembled word. -/
def Wire.shiftIn (p : Params) (given : Option Word) : Nat → Wire → Word × Wire
  | 0, w => (0, w)
  | n + 1, w =>
    let r := Wire.shiftIn p given n w
    let b := r.2.shiftInBit p (given.map fun g => g.getLsbD n)
    (setBit r.1 n b.1, b.2)

/-- DATA is released and the sixteen bits of a data-in frame are sampled: the word they assemble to
(R86, R116). -/
def Wire.readFrame (p : Params) (given : Option Word) (w : Wire) : Word × Wire :=
  Wire.shiftIn p given dataBits (w.emitAll p [.dir .data .input])

/-! ### Bit-link primitives -/

/-- `x[TXW] <- v` and the first `n` of its bits go out; `BITCNT` ends at the last index (R22, R112). -/
def State.shiftOut (v : BitVec 32) (n : Nat) (s : State) : State :=
  { s with
    data := { s.data with txw := v, bitcnt := BitVec.ofNat 6 (n - 1) }
    wire := s.wire.emitAll s.params (shiftOutBits s.params v n) }

/-- increment of the shadow pointer (R172). -/
def incrementPointer (q : Sequencer) : Sequencer :=
  if q.apKnown then
    if q.ap = 0x1FFF#16 ∨ 0x2007#16 ≤ q.ap then { q with ap := q.ap + 1, apKnown := false }
    else { q with ap := q.ap + 1 }
  else q

/-- `ShadowUpdate(cmd)` (R167): the shadow-pointer column of R166, keyed on the code. -/
def shadowUpdate (c : Codes) (cmd : Code) (q : Sequencer) : Sequencer :=
  if cmd = c.resetAddress then { q with ap := 0, apKnown := true }
  else if cmd = c.loadConfig then { q with ap := configBase, apKnown := true }
  else if cmd = c.incrementAddress then incrementPointer q
  else if cmd ∈ [c.loadForProgram, c.readFromProgram, c.beginTimedProgram, c.bulkErase] then q
  else { q with apKnown := false }

/-- `SENDCMD cmd, postDelay` (R112). -/
def sendCommand (cmd : Code) (postDelay : Nat) (s : State) : State :=
  let s := s.begin
  let s := s.shiftOut (cmd.setWidth 32) cmdBits
  let s := s.emitAll [.set .data false, .delay postDelay]
  let s := { s with seq := shadowUpdate s.params.codes cmd s.seq }
  s.finish .ok

/-- `WRDATA word` (R114). -/
def writeData (word : Word) (s : State) : State :=
  let s := s.begin
  let s := s.shiftOut ((frameWord word).setWidth 32) dataBits
  let s := s.emitAll [.set .data false]
  s.finish .ok

/-- `RDDATA` (R116), its samples the target's or, for a frame given as such, the frame's (R86). -/
def readData (given : Option Word) (s : State) : State :=
  let s := s.begin
  let r := Wire.readFrame s.params given s.wire
  let s := { s with
    wire := r.2
    data := { s.data with rxw := r.1, bitcnt := BitVec.ofNat 6 (dataBits - 1) } }
  let s := s.emitAll [.dir .data .output]
  let s := { s with data := { s.data with res := unframeWord s.data.rxw } }
  s.finish .ok

/-! ### Sequencer -/

/-- The key frame: 32 bits of `KEY`, then the one additional pulse with DATA at 0, at bit index 32
(R88, R130). -/
def shiftKey (s : State) : State :=
  let s := s.shiftOut s.params.key keyBits
  let s := s.emitAll (shiftOutBit s.params false)
  { s with data := { s.data with bitcnt := BitVec.ofNat 6 keyBits } }

/-- `ENTER` (R130). -/
def enterProgramMode (s : State) : State :=
  let s := s.begin
  let s := { s with seq := { s.seq with session := .entryShift, apKnown := false } }
  let s := s.emitAll [.dir .mclr .output, .set .mclr true, .delay s.params.tEntHigh,
    .set .mclr false, .delay s.params.tEntLow]
  let s := shiftKey s
  let s := { s with seq := { s.seq with session := .programMode } }
  s.finish .ok

/-- `EXIT` (R134). -/
def exitProgramMode (s : State) : State :=
  let s := s.begin
  let s := { s with seq := { s.seq with session := .exitingMode } }
  let s := s.emitAll [.set .clk false, .set .data false, .dir .mclr .input]
  let s := { s with seq := { s.seq with apKnown := false, session := .unpowered } }
  s.finish .ok

/-- `RSTADDR` (R136). -/
def resetAddressPointer (s : State) : State :=
  sendCommand s.params.codes.resetAddress s.params.tDly s

/-- `INCADDR` (R138). -/
def incrementAddressPointer (s : State) : State :=
  sendCommand s.params.codes.incrementAddress s.params.tDly s

/-- `INCADDR` `k` times (R140, R177). -/
def incrementTimes : Nat → State → State
  | 0, s => s
  | k + 1, s => incrementAddressPointer (incrementTimes k s)

/-- `GOTOCFG k`: load-config, the zero data word, `k` increments (R177). -/
def gotoConfig (k : Nat) (s : State) : State :=
  let s := sendCommand s.params.codes.loadConfig s.params.tDly s
  let s := writeData 0 s
  incrementTimes k s

/-! ### Decode and lookup of the device ID -/

/-- The lookup: linear by `device_id`, first match wins (R153). -/
def lookup : List Row → BitVec 9 → Option Row
  | [], _ => none
  | r :: rs, id => if r.deviceId = id then some r else lookup rs id

/-- A match: the Resolved Device is populated and a fresh Memory Image allocated, all unfilled (R154). -/
def resolveMatch (r : Row) (rev : BitVec 5) (s : State) : State :=
  let s := { s with
    dev := { s.dev with valid := true, name := r.name, size := r.codeMemorySize, rev := rev }
    imgAlloc := true
    image := [] }
  s.finish .ok

/-- No match: the Resolved Device is cleared, no allocation, `DeviceNotRecognized` is raised (R155). -/
def resolveNoMatch (s : State) : State :=
  let s := { s with dev := { s.dev with valid := false, name := "", size := 0, rev := 0 } }
  s.raise .deviceNotRecognized

/-- `Resolve(W)` (R152 to R155). It produces no pin event. -/
def resolve (w : Word) (s : State) : State :=
  let s := s.begin
  let s := { s with dev := { s.dev with id := deviceIdOf w } }
  match lookup s.params.table (deviceIdOf w) with
  | some r => resolveMatch r (deviceRevOf w) s
  | none => resolveNoMatch s

/-- `RDDEVID` (R140). -/
def readDeviceId (s : State) : State :=
  let s := gotoConfig s.params.idIncrements s
  let s := sendCommand s.params.codes.readFromProgram s.params.tDly s
  let s := readData none s
  resolve s.data.res s

end Sys2Proof.Machine
end

