-- ==== Sys2Proof/Machine/BitLink.lean ====
section
/-! DEFINITION. The bit-link operations as the host requests them (40_bitlink.md): `SENDCMD`, `WRDATA`,
`RDDATA`, each with the response column of R91. -/

namespace Sys2Proof.Machine

/-- `SENDCMD cmd, postDelay`, answered with `RES = 0` (R91, R112). -/
def runSendcmd (cmd : Code) (postDelay : Nat) (s : State) : State :=
  (sendCommand cmd postDelay s).respond 0

/-- `WRDATA word`, answered with `RES = 0` (R91, R114). -/
def runWrdata (word : Word) (s : State) : State := (writeData word s).respond 0

/-- `RDDATA`, answered with the 16-bit result (R91, R116). -/
def runRddata (s : State) : State :=
  let s := readData none s
  s.respond s.data.res

/-- Meaning of `SENDCMD` (R112). -/
def execSendcmd (cmd : Code) (postDelay : BitVec 32) (s : State) : Host.Outcome State Fault Refusal :=
  .next (runSendcmd cmd postDelay.toNat s)

/-- Meaning of `WRDATA` (R114). -/
def execWrdata (word : Word) (s : State) : Host.Outcome State Fault Refusal := .next (runWrdata word s)

/-- Meaning of `RDDATA` (R116). -/
def execRddata (s : State) : Host.Outcome State Fault Refusal := .next (runRddata s)

end Sys2Proof.Machine
end

