-- ==== Sys2Proof/Machine/Sequencing.lean ====
section
/-! DEFINITION. The sequencer's operations as the host requests them (41_session.md): `ENTER`, `EXIT`,
`RSTADDR`, `INCADDR`, `RDDEVID`, and the reserved operation selects (R92), each with the response
column of R91. -/

namespace Sys2Proof.Machine

/-- `ENTER`, answered with `RES = 0` (R91, R130). -/
def runEnter (s : State) : State := (enterProgramMode s).respond 0

/-- `EXIT`, answered with `RES = 0` (R91, R134). -/
def runExit (s : State) : State := (exitProgramMode s).respond 0

/-- `RSTADDR`, answered with `RES = 0` (R91, R136). -/
def runRstaddr (s : State) : State := (resetAddressPointer s).respond 0

/-- `INCADDR`, answered with `RES = 0` (R91, R138). -/
def runIncaddr (s : State) : State := (incrementAddressPointer s).respond 0

/-- `RDDEVID`, answered with the raw ID word, recognised or not (R91, R140). -/
def runRddevid (s : State) : State :=
  let s := readDeviceId s
  s.respond s.data.res

/-- A reserved operation select: no pin event, no state change but `STATUS = IllegalOp` (R92, R214),
answered with `RES = 0`. -/
def runReserved (s : State) : State := (s.raise .illegalOp).respond 0

/-- Meaning of `ENTER` (R130). -/
def execEnter (s : State) : Host.Outcome State Fault Refusal := .next (runEnter s)

/-- Meaning of `EXIT` (R134). -/
def execExit (s : State) : Host.Outcome State Fault Refusal := .next (runExit s)

/-- Meaning of `RSTADDR` (R136). -/
def execRstaddr (s : State) : Host.Outcome State Fault Refusal := .next (runRstaddr s)

/-- Meaning of `INCADDR` (R138). -/
def execIncaddr (s : State) : Host.Outcome State Fault Refusal := .next (runIncaddr s)

/-- Meaning of `RDDEVID` (R140). -/
def execRddevid (s : State) : Host.Outcome State Fault Refusal := .next (runRddevid s)

/-- Meaning of the reserved operation selects (R92): every one of them the same. -/
def execReservedOp (_op : BitVec 4) (s : State) : Host.Outcome State Fault Refusal :=
  .next (runReserved s)

end Sys2Proof.Machine
end

