-- ==== Sys2Proof/Machine/Commands.lean ====
section
/-! DEFINITION. The ICSP commands of 43_icsp_commands.md: one command frame each, with the post-delay
that R166 gives the command. The data frame that three of them call for is an instruction of its own
("the block sends the two frames as two operations", R165). The rows are wire frames and no host
requests, so no response is made (R91; log entry 5). -/

namespace Sys2Proof.Machine

/-- The post-delay of begin-timed-program: `T_PROG` for a code row, `T_PROG_CFG` for the fuse word (R174). -/
def programDelay (p : Params) (fuseWord : Bool) : Nat := if fuseWord then p.tProgCfg else p.tProg

/-- Meaning of load-config (R170). -/
def execLoadConfig (s : State) : Host.Outcome State Fault Refusal :=
  .next (sendCommand s.params.codes.loadConfig s.params.tDly s)

/-- Meaning of load-for-program (R171). -/
def execLoadForProgram (s : State) : Host.Outcome State Fault Refusal :=
  .next (sendCommand s.params.codes.loadForProgram s.params.tDly s)

/-- Meaning of read-from-program (R173). -/
def execReadFromProgram (s : State) : Host.Outcome State Fault Refusal :=
  .next (sendCommand s.params.codes.readFromProgram s.params.tDly s)

/-- Meaning of increment (R172). -/
def execIncrementAddress (s : State) : Host.Outcome State Fault Refusal :=
  .next (sendCommand s.params.codes.incrementAddress s.params.tDly s)

/-- Meaning of begin-timed-program (R174). -/
def execBeginTimedProgram (fuseWord : Bool) (s : State) : Host.Outcome State Fault Refusal :=
  .next (sendCommand s.params.codes.beginTimedProgram (programDelay s.params fuseWord) s)

/-- Meaning of bulk-erase (R175). -/
def execBulkErase (s : State) : Host.Outcome State Fault Refusal :=
  .next (sendCommand s.params.codes.bulkErase s.params.tErase s)

/-- Meaning of reset-address (R168). -/
def execResetAddress (s : State) : Host.Outcome State Fault Refusal :=
  .next (sendCommand s.params.codes.resetAddress s.params.tDly s)

/-- Meaning of any other code: shifted like any command, post-delay as given (R176). -/
def execOtherCommand (cmd : Code) (postDelay : BitVec 32) (s : State) :
    Host.Outcome State Fault Refusal :=
  .next (sendCommand cmd postDelay.toNat s)

end Sys2Proof.Machine
end

