-- ==== Sys2Proof/Machine/Frames.lean ====
section
/-! DEFINITION. The frames that carry data (R84, R86, R88) and the device-ID word (R89): the block
produces the data-out and the key frame, receives the data-in frame, and decodes the ID word. They are
no host requests, so no response is made (R91; log entry 5). -/

namespace Sys2Proof.Machine

/-- Meaning of a data-out frame: the block shifts it out as the word it frames (R84, R85, R114). -/
def execDataOutFrame (stop : Bool) (payload : Payload) (s : State) :
    Host.Outcome State Fault Refusal :=
  .next (writeData (wordOfFrame stop payload) s)

/-- Meaning of a data-in frame: the block samples exactly these levels and unframes them (R86, R87,
R116). -/
def execDataInFrame (last : Bool) (payload : Payload) (first : Bool) (s : State) :
    Host.Outcome State Fault Refusal :=
  .next (readData (some (rawOfFrame last payload first)) s)

/-- Meaning of the key frame: the 33 pulses of `ENTER` alone, without its MCLR events and without a
change of `SESSION` or `AP_KNOWN` (R88). -/
def execKeyFrame (s : State) : Host.Outcome State Fault Refusal :=
  .next ((shiftKey s.begin).finish .ok)

/-- Meaning of a device-ID word: `Resolve(W)` (R89, R152 to R155). `RES` is not written: only `RDDATA`
and `RDDEVID` write it (R91). -/
def execIdWord (ignored : BitVec 2) (deviceId : BitVec 9) (deviceRev : BitVec 5) (s : State) :
    Host.Outcome State Fault Refusal :=
  .next (resolve (idWordOf ignored deviceId deviceRev) s)

end Sys2Proof.Machine
end

