-- ==== Sys2Proof/Machine/Dispatch.lean ====
section
/-! DEFINITION. The dispatch: one arm per constructor of `Instr`, each a direct call of its meaning. -/

namespace Sys2Proof.Machine

def exec (i : Instr) (s : State) : Host.Outcome State Fault Refusal :=
  match i with
  | .sendcmd cmd postDelay => Sys2Proof.Machine.execSendcmd cmd postDelay s
  | .wrdata word => Sys2Proof.Machine.execWrdata word s
  | .rddata => Sys2Proof.Machine.execRddata s
  | .enter => Sys2Proof.Machine.execEnter s
  | .exit => Sys2Proof.Machine.execExit s
  | .rstaddr => Sys2Proof.Machine.execRstaddr s
  | .incaddr => Sys2Proof.Machine.execIncaddr s
  | .rddevid => Sys2Proof.Machine.execRddevid s
  | .reservedOp op => Sys2Proof.Machine.execReservedOp op s
  | .loadConfig => Sys2Proof.Machine.execLoadConfig s
  | .loadForProgram => Sys2Proof.Machine.execLoadForProgram s
  | .readFromProgram => Sys2Proof.Machine.execReadFromProgram s
  | .incrementAddress => Sys2Proof.Machine.execIncrementAddress s
  | .beginTimedProgram fuseWord => Sys2Proof.Machine.execBeginTimedProgram fuseWord s
  | .bulkErase => Sys2Proof.Machine.execBulkErase s
  | .resetAddress => Sys2Proof.Machine.execResetAddress s
  | .otherCommand cmd postDelay => Sys2Proof.Machine.execOtherCommand cmd postDelay s
  | .dataOutFrame stop payload => Sys2Proof.Machine.execDataOutFrame stop payload s
  | .dataInFrame last payload first => Sys2Proof.Machine.execDataInFrame last payload first s
  | .keyFrame => Sys2Proof.Machine.execKeyFrame s
  | .idWord ignored deviceId deviceRev => Sys2Proof.Machine.execIdWord ignored deviceId deviceRev s

end Sys2Proof.Machine
end

