-- ==== Sys2Proof/Machine/Step.lean ====
section
/-! DEFINITION. One step of the machine: the block is reset (R230), or takes the host's next request and
runs it to completion (R20, R60), or waits (R35). -/

namespace Sys2Proof.Machine

/-- One step. A pending reset comes first (R230). "After reset the block is idle and waits for the host's
first request" (R35): a step without a request changes nothing. -/
def step (s : State) : Host.Outcome State Fault Refusal :=
  match s.resetPending with
  | true => .next s.blockReset
  | false =>
    match fetch s with
    | none => .next s
    | some (e, s') =>
      match decode s'.params e with
      | .ok i => exec i s'
      | .error why => .refused (.notAnEncoding why)

/-- The machine with an instruction, in the numbering of spec/opcode_table.json, as its next request and
no reset pending. -/
def State.withFetchWord (s : State) (nbits w : Nat) : State :=
  { s with requests := Encoded.ofTableWord nbits w :: s.requests, resetPending := false }

end Sys2Proof.Machine
end

