-- ==== Sys2Proof/Machine/Transfer.lean ====
section
/-! DEFINITION. The host transfer sequences of 44_transfer_sequences.md and the pseudo-operations of R94,
as sequences of the block's host operations. They are the host's, not instructions of the block
(R5, R185): `step` never runs one, and a step's `STATUS` never holds their failures (R29). The calls of
the hex codec are outside (R6b): `write` takes the image that `loadImage` returned, `read` leaves in the
state the image that `storeImage` would be given. -/

namespace Sys2Proof.Machine

/-- How a host sequence ends (R188, R200, R202, R210 to R215). -/
inductive TransferResult where
  | success
  /-- `NotBlank(address, value)`, a byte address (R211). -/
  | notBlank (byteAddress : Nat) (value : Word)
  /-- `VerifyMismatch(address, observed, expected)`, a word address (R212). -/
  | verifyMismatch (address : Nat) (observed expected : Word)
  /-- The masked fuse word that `dumpConfigurationRegisters` reports (R202). -/
  | reported (value : Word)
  /-- The resolved device's memory is no whole number of rows: such a table is refused (D17). -/
  | partialRow
deriving DecidableEq, Repr

/-- The host status of a sequence's end (R215); a refused table has none. -/
def TransferResult.status : TransferResult → Option Status
  | .success => some .ok
  | .notBlank _ _ => some .notBlank
  | .verifyMismatch _ _ _ => some .verifyMismatch
  | .reported _ => some .ok
  | .partialRow => none

/-! ### Pseudo-operations (R94) -/

/-- `LOADCFG` (R94, R170). -/
def loadCfg (s : State) : State := runWrdata 0 (runSendcmd s.params.codes.loadConfig s.params.tDly s)

/-- `LOADPROG w` (R94, R171). -/
def loadProg (w : Word) (s : State) : State :=
  runWrdata w (runSendcmd s.params.codes.loadForProgram s.params.tDly s)

/-- `READPROG` (R94, R173). -/
def readProg (s : State) : State :=
  runRddata (runSendcmd s.params.codes.readFromProgram s.params.tDly s)

/-- `BEGINPROG t` (R94, R174). -/
def beginProg (t : Nat) (s : State) : State := runSendcmd s.params.codes.beginTimedProgram t s

/-- `BULKERASE` (R94, R175). -/
def bulkEraseOp (s : State) : State := runSendcmd s.params.codes.bulkErase s.params.tErase s

/-- `INCADDR` `k` times, as host requests. -/
def runIncaddrTimes : Nat → State → State
  | 0, s => s
  | k + 1, s => runIncaddr (runIncaddrTimes k s)

/-- `GOTOCFG k` (R94, R177). -/
def gotoCfg (k : Nat) (s : State) : State := runIncaddrTimes k (loadCfg s)

/-- The last result masked to its 14 meaningful bits (R186). -/
def maskedResult (s : State) : Word := s.data.res &&& payloadMask

/-- `READINC`: read, then increment, the value masked; the increment comes before any comparison (R186). -/
def readInc (s : State) : Word × State :=
  let s := readProg s
  (maskedResult s, runIncaddr s)

/-! ### blankCheck (R188) -/

/-- The scan of `k` words from word index `a`, ending at the first that is not blank. -/
def blankScan : Nat → Nat → State → TransferResult × State
  | 0, _, s => (.success, s)
  | k + 1, a, s =>
    if (readInc s).1 ≠ payloadMask then (.notBlank (reportAddress a) (readInc s).1, (readInc s).2)
    else blankScan k (a + 1) (readInc s).2

/-- `blankCheck()` (R188), over the resolved device's code memory (R187). -/
def blankCheck (s : State) : TransferResult × State := blankScan s.dev.size.toNat 0 (runRstaddr s)

/-! ### bulkErase (R190) -/

/-- `bulkErase()` (R190). -/
def bulkErase (s : State) : State := bulkEraseOp (runRstaddr s)

/-! ### read (R192) -/

/-- A word read is recorded as filled unless it is blank (R192). -/
def recordWord (a : Nat) (w : Word) (s : State) : State :=
  if w ≠ payloadMask then { s with image := s.image.fill s.params.programMemorySize a w } else s

/-- The code-memory pass of `read`: `k` words from word index `a`. -/
def readScan : Nat → Nat → State → State
  | 0, _, s => s
  | k + 1, a, s => readScan k (a + 1) (recordWord a (readInc s).1 (readInc s).2)

/-- `read(destination, start, count)` up to `storeImage`; the described behaviour ignores `start` and
`count` (R192, C8). -/
def readImage (_start _count : Nat) (s : State) : State :=
  let s := readScan s.dev.size.toNat 0 (runRstaddr s)
  let s := readProg (gotoCfg cfgIncrements s)
  recordWord fuseAddr (maskedResult s) s

/-! ### write (R196, R198, R200) -/

/-- `k` words of a row from word address `a`, each loaded and stepped past (R196). -/
def writeWords : Nat → Nat → State → State
  | 0, _, s => s
  | k + 1, a, s => writeWords k (a + 1) (runIncaddr (loadProg (s.image.location a) s))

/-- Row `r`: fifteen words, then the sixteenth with the programming pulse, then the final increment
(R196, R244). -/
def writeRow (r : Nat) (s : State) : State :=
  let s := writeWords (rowWords - 1) (rowWords * r) s
  let s := loadProg (s.image.location (rowWords * r + (rowWords - 1))) s
  runIncaddr (beginProg s.params.tProg s)

/-- `k` rows from row `r`. -/
def writeRows : Nat → Nat → State → State
  | 0, _, s => s
  | k + 1, r, s => writeRows k (r + 1) (writeRow r s)

/-- The fuse word, if it is filled (R198). -/
def writeFuse (s : State) : State :=
  if s.image.filled fuseAddr then
    let s := gotoCfg cfgIncrements s
    let s := loadProg (s.image.location fuseAddr) s
    beginProg s.params.tProgCfg s
  else s

/-- The verify scan of `k` words from word address `a`: filled words are compared, the first that differs
ends it (R200, R217). -/
def verifyScan : Nat → Nat → State → TransferResult × State
  | 0, _, s => (.success, s)
  | k + 1, a, s =>
    if s.image.filled a ∧ (readInc s).1 ≠ s.image.location a &&& payloadMask then
      (.verifyMismatch a (readInc s).1 (s.image.location a &&& payloadMask), (readInc s).2)
    else verifyScan k (a + 1) (readInc s).2

/-- The bits of the fuse word that are compared: all fourteen but the LVP bit (R200, R248). -/
def fuseMask (p : Params) : Word := payloadMask &&& ~~~(p.lvpMask.setWidth 16)

/-- The verify of the fuse word (R200). -/
def verifyFuse (s : State) : TransferResult × State :=
  let s := readProg (gotoCfg cfgIncrements s)
  let w := maskedResult s
  let v := s.image.location fuseAddr
  if s.image.filled fuseAddr ∧ w &&& fuseMask s.params ≠ v &&& fuseMask s.params then
    (.verifyMismatch fuseAddr w (v &&& payloadMask), s)
  else (.success, s)

/-- The verify pass: code memory first, the fuse word only if that agreed (R200, R217). -/
def verify (s : State) : TransferResult × State :=
  match verifyScan s.dev.size.toNat 0 (runRstaddr s) with
  | (.success, s) => verifyFuse s
  | (r, s) => (r, s)

/-- `write(source)`, given the image that `loadImage(source)` returned (R196, R198, R200). -/
def writeImage (img : Image) (s : State) : TransferResult × State :=
  if s.dev.size.toNat % rowWords ≠ 0 then (.partialRow, s)
  else
    let s := bulkErase { s with image := img }
    let s := writeRows (s.dev.size.toNat / rowWords) 0 (runRstaddr s)
    let s := writeFuse s
    if s.flags.noverify then (.success, s) else verify s

/-! ### dumpConfigurationRegisters (R202) -/

/-- `dumpConfigurationRegisters()` (R202). -/
def dumpConfigurationRegisters (s : State) : TransferResult × State :=
  let s := readProg (gotoCfg cfgIncrements s)
  (.reported (maskedResult s), s)

/-! ### The end of a session (R232) -/

/-- The host ends the session: `EXIT`, and it frees its Memory Image ("freed at session end", R56, D29). -/
def endSession (s : State) : State := { runExit s with image := [] }

end Sys2Proof.Machine
end

