-- ==== Sys2Proof/Safety.lean ====
section
/-! DEFINITION. The terms in which claims speak of a run: what an observer of the three wires reads off
a list of pin events (R10, R57, R113, R242, R249, R252), and the invariant of the machine between
operations. -/

namespace Sys2Proof.Machine

/-! ### Reading a trace -/

/-- The pin registers after a list of pin events (R21). -/
def Pins.after (ps : Pins) (es : List PinEvent) : Pins := es.foldl Pins.apply ps

/-- A pin event that makes the latched clock level fall. -/
def PinEvent.isFall (ps : Pins) (e : PinEvent) : Bool := ps.clk.lvl && !(ps.apply e).clk.lvl

/-- A pin event that makes the latched clock level rise. -/
def PinEvent.isRise (ps : Pins) (e : PinEvent) : Bool := !ps.clk.lvl && (ps.apply e).clk.lvl

/-- The latched DATA level at each falling clock edge of a list of events, in time order: what a
receiver on the wires reads (R82, R84, R88). -/
def dataAtFalls : Pins → List PinEvent → List Level
  | _, [] => []
  | ps, e :: es =>
    if e.isFall ps then (ps.apply e).data.lvl :: dataAtFalls (ps.apply e) es
    else dataAtFalls (ps.apply e) es

/-- How often the clock rises in a list of events. -/
def clockRises : Pins → List PinEvent → Nat
  | _, [] => 0
  | ps, e :: es => (if e.isRise ps then 1 else 0) + clockRises (ps.apply e) es

/-- The time an event blocks for, in microseconds (R222). -/
def PinEvent.time : PinEvent → Nat
  | .delay t => t
  | .dir _ _ => 0
  | .set _ _ => 0
  | .sample _ _ => 0

/-- A lower bound on the duration of a list of events, in microseconds: the sum of its delays (R242,
R252). -/
def duration (es : List PinEvent) : Nat := (es.map PinEvent.time).sum

/-- The level an event sampled, if it is a sample. -/
def PinEvent.level : PinEvent → Option Level
  | .sample _ b => some b
  | .dir _ _ => none
  | .set _ _ => none
  | .delay _ => none

/-- The sampled levels of a list of events, in time order. -/
def sampledLevels (es : List PinEvent) : List Level := es.filterMap PinEvent.level

/-- An event without the value it sampled (R27). -/
def PinEvent.withoutValue : PinEvent → PinEvent
  | .sample p _ => .sample p false
  | .dir p d => .dir p d
  | .set p v => .set p v
  | .delay t => .delay t

/-- A `PinSet` that does not change the pin's latched level (R113). -/
def PinEvent.redundant (ps : Pins) : PinEvent → Bool
  | .set p v => (ps.get p).lvl == v
  | .dir _ _ => false
  | .sample _ _ => false
  | .delay _ => false

/-- The events an observer of the wires can tell: without the redundant `PinSet`s (R113). No delay is
dropped. -/
def observable : Pins → List PinEvent → List PinEvent
  | _, [] => []
  | ps, e :: es =>
    if e.redundant ps then observable (ps.apply e) es else e :: observable (ps.apply e) es

/-- The block does not drive DATA while this event happens, if it is a sample (R249). -/
def PinEvent.released (ps : Pins) : PinEvent → Bool
  | .sample _ _ => ps.data.dir == .input
  | .dir _ _ => true
  | .set _ _ => true
  | .delay _ => true

/-- Every sample of a list of events is taken while the block does not drive DATA (R249). -/
def samplesReleased : Pins → List PinEvent → Bool
  | _, [] => true
  | ps, e :: es => e.released ps && samplesReleased (ps.apply e) es

/-! ### The event lists of the operations -/

/-- `SENDCMD cmd, d` (R112). -/
def commandEvents (p : Params) (cmd : Code) (d : Nat) : List PinEvent :=
  shiftOutBits p cmd cmdBits ++ [.set .data false, .delay d]

/-- `WRDATA word` (R114). -/
def dataOutEvents (p : Params) (word : Word) : List PinEvent :=
  shiftOutBits p (frameWord word) dataBits ++ [.set .data false]

/-- `ShiftInBit()` with the level it sampled (R111). -/
def shiftInBitEvents (p : Params) (b : Level) : List PinEvent :=
  [.set .clk true, .delay p.tCo, .sample .data b, .set .clk false, .delay p.tHold]

/-- The first `n` bits of a data-in frame (R116). -/
def shiftInEvents (p : Params) (raw : Word) (n : Nat) : List PinEvent :=
  (bitsLsbFirst raw n).flatMap (shiftInBitEvents p)

/-- `RDDATA` when its samples assemble to `raw` (R116). -/
def dataInEvents (p : Params) (raw : Word) : List PinEvent :=
  [.dir .data .input] ++ shiftInEvents p raw dataBits ++ [.dir .data .output]

/-- The key frame (R88). -/
def keyEvents (p : Params) : List PinEvent := shiftOutBits p p.key keyBits ++ shiftOutBit p false

/-- `ENTER` (R130). -/
def enterEvents (p : Params) : List PinEvent :=
  [.dir .mclr .output, .set .mclr true, .delay p.tEntHigh, .set .mclr false, .delay p.tEntLow] ++
    keyEvents p

/-- `EXIT` (R134). -/
def exitEvents : List PinEvent := [.set .clk false, .set .data false, .dir .mclr .input]

/-- `INCADDR` `k` times (R138). -/
def incrementEvents (p : Params) (k : Nat) : List PinEvent :=
  (List.replicate k (commandEvents p p.codes.incrementAddress p.tDly)).flatten

/-- `RDDEVID` before its data-in frame (R140). -/
def deviceIdPrelude (p : Params) : List PinEvent :=
  commandEvents p p.codes.loadConfig p.tDly ++ dataOutEvents p 0 ++ incrementEvents p p.idIncrements ++
    commandEvents p p.codes.readFromProgram p.tDly

/-- `RDDEVID` when its samples assemble to `raw` (R140). -/
def deviceIdEvents (p : Params) (raw : Word) : List PinEvent := deviceIdPrelude p ++ dataInEvents p raw

/-! ### What an operation leaves, in the words claims use -/

/-- The pins after a frame the block shifted out: CLK and DATA latched at 0, nothing else moved (R112,
R114). -/
def Pins.framed (ps : Pins) : Pins :=
  { ps with clk := { ps.clk with lvl := false }, data := { ps.data with lvl := false } }

/-- From `s` to `t` exactly the events `es` happened: they joined the trace, and an oracle at the other
end lost none of its answers (R60, R65). -/
def Emitted (es : List PinEvent) (s t : State) : Prop :=
  t.wire.trace = s.wire.trace ++ es ∧
    (s.wire.target.ref = none → t.wire.target = s.wire.target)

/-- From `s` to `t` a command frame was sent, and nothing changed but what R112 lists: the wire, `TXW`,
`BITCNT`, the shadow pointer by R167, `STATUS`; and the response, of which this says nothing. -/
def CommandSent (cmd : Code) (postDelay : Nat) (s t : State) : Prop :=
  Emitted (commandEvents s.params cmd postDelay) s t ∧
    t.wire.pins = s.wire.pins.framed ∧
    t = { s with
      wire := t.wire
      data := { s.data with txw := cmd.setWidth 32, bitcnt := t.data.bitcnt }
      seq := { shadowUpdate s.params.codes cmd s.seq with phase := .idle }
      status := .ok
      responses := t.responses }

/-- From `s` to `t` a data-out frame was sent for `word`, and nothing changed but what R114 lists: the
wire, `TXW`, `BITCNT`, `STATUS`; and the response, of which this says nothing. -/
def DataSent (word : Word) (s t : State) : Prop :=
  Emitted (dataOutEvents s.params word) s t ∧
    t.wire.pins = s.wire.pins.framed ∧
    t = { s with
      wire := t.wire
      data := { s.data with txw := (frameWord word).setWidth 32, bitcnt := t.data.bitcnt }
      seq := { s.seq with phase := .idle }
      status := .ok
      responses := t.responses }

/-- From `s` to `t` a data-in frame was received whose samples assemble to `raw`, and nothing changed
but what R116 lists: the wire, `RXW`, `BITCNT`, `RES`, `STATUS`; and the response, of which this says
nothing. -/
def DataReceived (raw : Word) (s t : State) : Prop :=
  t.wire.trace = s.wire.trace ++ dataInEvents s.params raw ∧
    t.wire.pins =
      { s.wire.pins with
        clk := { s.wire.pins.clk with lvl := false }
        data := { s.wire.pins.data with dir := .output } } ∧
    t = { s with
      wire := t.wire
      data := { s.data with rxw := raw, bitcnt := t.data.bitcnt, res := unframeWord raw }
      seq := { s.seq with phase := .idle }
      status := .ok
      responses := t.responses }

/-- The `j`-th of the frames the oracle has queued: its sixteen levels from position `16 j` (R86). -/
def queuedFrameAt (answers : List Level) (j : Nat) : Word :=
  ofBitsLsbFirst 16 ((answers.drop (16 * j)).take dataBits)

/-! ### The machine between operations -/

/-- What holds whenever the block is idle. Each field names the rules it is read from. -/
structure Inv (s : State) : Prop where
  /-- The parameters are well formed (R238). -/
  params : s.params.Wf
  /-- CLK is an output at 0 (R21, R35, R112 to R134). -/
  clk : s.wire.pins.clk = ⟨.output, false⟩
  /-- DATA is an output at 0 (R21, R35, R112 to R134). -/
  data : s.wire.pins.data = ⟨.output, false⟩
  /-- MCLR is latched low (R35, R130, R134). -/
  mclrLow : s.wire.pins.mclr.lvl = false
  /-- In programming mode MCLR is driven (R130). -/
  mclrDriven : s.seq.session = .programMode → s.wire.pins.mclr.dir = .output
  /-- Without a session MCLR is released (R134, R226). -/
  mclrReleased : s.seq.session = .unpowered → s.wire.pins.mclr.dir = .input
  /-- "Between operations the host sees only 0 or 2" (R24). -/
  session : s.seq.session = .unpowered ∨ s.seq.session = .programMode
  /-- "It is idle between operations" (R27). -/
  phase : s.seq.phase = .idle
  /-- A known pointer lies in the ranges the block vouches for (R172). -/
  pointer : s.seq.apKnown = true → s.seq.ap.toNat ≤ 0x2007
  /-- Codes 2 and 3 "are never written by the block" (R29). -/
  status : s.status = .ok ∨ s.status = .deviceNotRecognized ∨ s.status = .illegalOp
  /-- `RD_VALID = 1` iff `RD_NAME` is non-empty (R28). -/
  deviceName : s.dev.valid = true ↔ s.dev.name ≠ ""
  /-- `RD_VALID = 1` iff `RD_SIZE ≠ 0` (R28). -/
  deviceSize : s.dev.valid = true ↔ s.dev.size ≠ 0
  /-- `RD_REV` is 0 when `RD_VALID = 0` (R28). -/
  deviceRev : s.dev.valid = false → s.dev.rev = 0
  /-- A resolved device has its image allocated (R154). -/
  allocated : s.dev.valid = true → s.imgAlloc = true
  /-- The Memory Image is in canonical form (R56). -/
  image : Image.wf s.params.programMemorySize s.image = true
  /-- `RES[15]` is 0 (R87). -/
  result : s.data.res.getLsbD 15 = false
  /-- A reference target's memory is in canonical form (R70). -/
  memory : ∀ r, s.wire.target.ref = some r → r.mem.wf = true

end Sys2Proof.Machine
end

