-- ==== Sys2Proof/Laws/State.lean ====
section
/-! SUPPORT. The small lemmas of the state's updates: one per field per update, true by `rfl`, and the
lemmas that say what a list of pin events does to the wire. -/

namespace Sys2Proof.Machine

variable (s : State) (es : List PinEvent) (o : Status) (r : Word) (v : BitVec 32) (n : Nat)

/-! ### `State.begin` -/
@[simp] theorem begin_params : s.begin.params = s.params := rfl
@[simp] theorem begin_requests : s.begin.requests = s.requests := rfl
@[simp] theorem begin_responses : s.begin.responses = s.responses := rfl
@[simp] theorem begin_wire : s.begin.wire = s.wire := rfl
@[simp] theorem begin_data : s.begin.data = s.data := rfl
@[simp] theorem begin_seq : s.begin.seq = { s.seq with phase := .running } := rfl
@[simp] theorem begin_dev : s.begin.dev = s.dev := rfl
@[simp] theorem begin_status : s.begin.status = s.status := rfl
@[simp] theorem begin_imgAlloc : s.begin.imgAlloc = s.imgAlloc := rfl
@[simp] theorem begin_image : s.begin.image = s.image := rfl
@[simp] theorem begin_flags : s.begin.flags = s.flags := rfl
@[simp] theorem begin_resetPending : s.begin.resetPending = s.resetPending := rfl

/-! ### `State.finish` -/
@[simp] theorem finish_params : (s.finish o).params = s.params := rfl
@[simp] theorem finish_requests : (s.finish o).requests = s.requests := rfl
@[simp] theorem finish_responses : (s.finish o).responses = s.responses := rfl
@[simp] theorem finish_wire : (s.finish o).wire = s.wire := rfl
@[simp] theorem finish_data : (s.finish o).data = s.data := rfl
@[simp] theorem finish_seq : (s.finish o).seq = { s.seq with phase := .idle } := rfl
@[simp] theorem finish_dev : (s.finish o).dev = s.dev := rfl
@[simp] theorem finish_status : (s.finish o).status = o := rfl
@[simp] theorem finish_imgAlloc : (s.finish o).imgAlloc = s.imgAlloc := rfl
@[simp] theorem finish_image : (s.finish o).image = s.image := rfl
@[simp] theorem finish_flags : (s.finish o).flags = s.flags := rfl
@[simp] theorem finish_resetPending : (s.finish o).resetPending = s.resetPending := rfl

/-! ### `State.respond` -/
@[simp] theorem respond_params : (s.respond r).params = s.params := rfl
@[simp] theorem respond_requests : (s.respond r).requests = s.requests := rfl
@[simp] theorem respond_responses : (s.respond r).responses = s.responses ++ [⟨s.status, r⟩] := rfl
@[simp] theorem respond_wire : (s.respond r).wire = s.wire := rfl
@[simp] theorem respond_data : (s.respond r).data = s.data := rfl
@[simp] theorem respond_seq : (s.respond r).seq = s.seq := rfl
@[simp] theorem respond_dev : (s.respond r).dev = s.dev := rfl
@[simp] theorem respond_status : (s.respond r).status = s.status := rfl
@[simp] theorem respond_imgAlloc : (s.respond r).imgAlloc = s.imgAlloc := rfl
@[simp] theorem respond_image : (s.respond r).image = s.image := rfl
@[simp] theorem respond_flags : (s.respond r).flags = s.flags := rfl
@[simp] theorem respond_resetPending : (s.respond r).resetPending = s.resetPending := rfl

/-! ### `State.emitAll` -/
@[simp] theorem emitAll_params : (s.emitAll es).params = s.params := rfl
@[simp] theorem emitAll_requests : (s.emitAll es).requests = s.requests := rfl
@[simp] theorem emitAll_responses : (s.emitAll es).responses = s.responses := rfl
@[simp] theorem emitAll_wire : (s.emitAll es).wire = s.wire.emitAll s.params es := rfl
@[simp] theorem emitAll_data : (s.emitAll es).data = s.data := rfl
@[simp] theorem emitAll_seq : (s.emitAll es).seq = s.seq := rfl
@[simp] theorem emitAll_dev : (s.emitAll es).dev = s.dev := rfl
@[simp] theorem emitAll_status : (s.emitAll es).status = s.status := rfl
@[simp] theorem emitAll_imgAlloc : (s.emitAll es).imgAlloc = s.imgAlloc := rfl
@[simp] theorem emitAll_image : (s.emitAll es).image = s.image := rfl
@[simp] theorem emitAll_flags : (s.emitAll es).flags = s.flags := rfl
@[simp] theorem emitAll_resetPending : (s.emitAll es).resetPending = s.resetPending := rfl

/-! ### `State.shiftOut` -/
@[simp] theorem shiftOut_params : (s.shiftOut v n).params = s.params := rfl
@[simp] theorem shiftOut_requests : (s.shiftOut v n).requests = s.requests := rfl
@[simp] theorem shiftOut_responses : (s.shiftOut v n).responses = s.responses := rfl
@[simp] theorem shiftOut_wire :
    (s.shiftOut v n).wire = s.wire.emitAll s.params (shiftOutBits s.params v n) := rfl
@[simp] theorem shiftOut_data :
    (s.shiftOut v n).data = { s.data with txw := v, bitcnt := BitVec.ofNat 6 (n - 1) } := rfl
@[simp] theorem shiftOut_seq : (s.shiftOut v n).seq = s.seq := rfl
@[simp] theorem shiftOut_dev : (s.shiftOut v n).dev = s.dev := rfl
@[simp] theorem shiftOut_status : (s.shiftOut v n).status = s.status := rfl
@[simp] theorem shiftOut_imgAlloc : (s.shiftOut v n).imgAlloc = s.imgAlloc := rfl
@[simp] theorem shiftOut_image : (s.shiftOut v n).image = s.image := rfl
@[simp] theorem shiftOut_flags : (s.shiftOut v n).flags = s.flags := rfl
@[simp] theorem shiftOut_resetPending : (s.shiftOut v n).resetPending = s.resetPending := rfl

/-! ### `State.blockReset` -/
@[simp] theorem blockReset_params : s.blockReset.params = s.params := rfl
@[simp] theorem blockReset_requests : s.blockReset.requests = s.requests := rfl
@[simp] theorem blockReset_responses : s.blockReset.responses = s.responses := rfl
@[simp] theorem blockReset_wire :
    s.blockReset.wire = { pins := Pins.reset, trace := [], target := s.wire.target } := rfl
@[simp] theorem blockReset_data : s.blockReset.data = { txw := 0, rxw := 0, bitcnt := 0, res := 0 } := rfl
@[simp] theorem blockReset_seq :
    s.blockReset.seq = { session := .unpowered, ap := 0, apKnown := false, phase := .idle } := rfl
@[simp] theorem blockReset_dev : s.blockReset.dev = ⟨false, "", 0, 0, 0⟩ := rfl
@[simp] theorem blockReset_status : s.blockReset.status = .ok := rfl
@[simp] theorem blockReset_imgAlloc : s.blockReset.imgAlloc = false := rfl
@[simp] theorem blockReset_image : s.blockReset.image = s.image := rfl
@[simp] theorem blockReset_flags : s.blockReset.flags = ⟨false, false, false⟩ := rfl
@[simp] theorem blockReset_resetPending : s.blockReset.resetPending = false := rfl

/-! ### Events on the wire -/

variable (p : Params) (w : Wire) (e : PinEvent) (ps : Pins) (fs : List PinEvent)

@[simp] theorem emit_trace : (w.emit p e).trace = w.trace ++ [e] := rfl
@[simp] theorem emit_pins : (w.emit p e).pins = w.pins.apply e := rfl

@[simp] theorem wire_emitAll_nil : w.emitAll p [] = w := rfl
theorem wire_emitAll_cons : w.emitAll p (e :: es) = (w.emit p e).emitAll p es := rfl
theorem wire_emitAll_append : w.emitAll p (es ++ fs) = (w.emitAll p es).emitAll p fs :=
  List.foldl_append

@[simp] theorem wire_emitAll_trace : (w.emitAll p es).trace = w.trace ++ es := by
  induction es generalizing w with
  | nil => simp
  | cons e es ih => simp [wire_emitAll_cons, ih]

@[simp] theorem wire_emitAll_pins : (w.emitAll p es).pins = w.pins.after es := by
  induction es generalizing w with
  | nil => rfl
  | cons e es ih => simp [wire_emitAll_cons, ih, Pins.after]

@[simp] theorem after_nil : ps.after [] = ps := rfl
theorem after_cons : ps.after (e :: es) = (ps.apply e).after es := rfl
theorem after_append : ps.after (es ++ fs) = (ps.after es).after fs := List.foldl_append

/-- Under the oracle an event means nothing to the target (R65). -/
theorem observe_oracle {before after : Pins} {t : Target} (h : t.ref = none) :
    t.observe p before after = t := by simp [Target.observe, h]

/-- Under the oracle a list of events leaves the target as it was (R65). -/
theorem wire_emitAll_oracle (h : w.target.ref = none) : (w.emitAll p es).target = w.target := by
  induction es generalizing w with
  | nil => rfl
  | cons e es ih =>
    have h' : (w.emit p e).target = w.target := observe_oracle p h
    rw [wire_emitAll_cons, ih _ (h' ▸ h), h']

end Sys2Proof.Machine
end

