-- ==== Sys2Proof/Laws/Memory.lean ====
section
/-! SUPPORT. The sparse memories: every operation keeps the canonical form, a read after a write, and
what a write leaves alone. -/

namespace Sys2Proof.Machine

variable {w : Nat}

/-! ### Strictly rising lists -/

theorem rising_cons {c : Nat × BitVec w} {m : Sparse w} :
    Sparse.rising (c :: m) = true ↔ (∀ d ∈ m, c.1 < d.1) ∧ Sparse.rising m = true := by
  simp [Sparse.rising]

theorem mem_put {m : Sparse w} {a : Nat} {v : BitVec w} {d : Nat × BitVec w}
    (h : d ∈ Sparse.put m a v) : d = (a, v) ∨ d ∈ m := by
  induction m with
  | nil => simpa [Sparse.put] using h
  | cons c m ih =>
    simp only [Sparse.put] at h
    split at h
    · simpa using h
    · split at h
      · simp only [List.mem_cons] at h ⊢; tauto
      · simp only [List.mem_cons] at h ⊢
        rcases h with h | h
        · tauto
        · have := ih h; tauto

theorem rising_put {m : Sparse w} (a : Nat) (v : BitVec w) (h : Sparse.rising m = true) :
    Sparse.rising (Sparse.put m a v) = true := by
  induction m with
  | nil => simp [Sparse.put, Sparse.rising]
  | cons c m ih =>
    obtain ⟨hc, hm⟩ := rising_cons.1 h
    simp only [Sparse.put]
    split
    · refine rising_cons.2 ⟨fun d hd => ?_, h⟩
      rcases List.mem_cons.1 hd with rfl | hd
      · assumption
      · have := hc d hd; simp only; omega
    · split
      · exact rising_cons.2 ⟨fun d hd => by have := hc d hd; simp only; omega, hm⟩
      · refine rising_cons.2 ⟨fun d hd => ?_, ih hm⟩
        rcases mem_put hd with rfl | hd
        · simp only; omega
        · exact hc d hd

theorem rising_filter {m : Sparse w} (f : Nat × BitVec w → Bool) (h : Sparse.rising m = true) :
    Sparse.rising (m.filter f) = true := by
  induction m with
  | nil => rfl
  | cons c m ih =>
    obtain ⟨hc, hm⟩ := rising_cons.1 h
    rw [List.filter_cons]
    split
    · exact rising_cons.2 ⟨fun d hd => hc d (List.mem_of_mem_filter hd), ih hm⟩
    · exact ih hm

/-! ### Reads and writes -/

theorem find_put {m : Sparse w} (a b : Nat) (v : BitVec w) :
    Sparse.find (Sparse.put m a v) b = if a = b then some v else Sparse.find m b := by
  induction m with
  | nil => simp [Sparse.put, Sparse.find]
  | cons c m ih =>
    simp only [Sparse.put]
    split
    · simp [Sparse.find]
    · split
      · subst a; by_cases h : c.1 = b <;> simp [Sparse.find, h]
      · by_cases h : c.1 = b
        · have : a ≠ b := by omega
          simp [Sparse.find, h, this]
        · simp [Sparse.find, h, ih]

theorem find_drop {m : Sparse w} (a b : Nat) :
    Sparse.find (Sparse.drop m a) b = if a = b then none else Sparse.find m b := by
  induction m with
  | nil => simp [Sparse.drop, Sparse.find]
  | cons c m ih =>
    simp only [Sparse.drop] at ih ⊢
    rw [List.filter_cons]
    split
    · rename_i hc
      have hc : c.1 ≠ a := by simpa using hc
      simp only [Sparse.find, ih]
      by_cases hb : c.1 = b
      · rw [if_pos hb, if_pos hb, if_neg (by omega)]
      · rw [if_neg hb, if_neg hb]
    · rename_i hc
      have hc : c.1 = a := by simpa using hc
      rw [ih]
      by_cases hb : a = b
      · rw [if_pos hb, if_pos hb]
      · simp [Sparse.find, hc, hb]

/-- A read after a write inside the target's memory (R11, R70). -/
theorem memory_read_write (m : Memory) (a b : Nat) (v : Payload) (h : a ≤ fuseAddr) :
    (m.write a v).read b = if a = b then v else m.read b := by
  unfold Memory.write Memory.read
  rw [if_neg (by omega)]
  split
  · rw [find_drop]; split <;> simp_all
  · rw [find_put]; split <;> simp

/-- An image reads what was filled in, and nothing else changes (R56). -/
theorem image_find_fill (m : Image) (size a b : Nat) (v : Word) (h : a < size) :
    Sparse.find (Image.fill size m a v) b = if a = b then some v else Sparse.find m b := by
  simp [Image.fill, h, find_put]

/-! ### The canonical forms are kept -/

theorem memory_wf_iff {m : Memory} : m.wf = true ↔
    Sparse.rising m = true ∧ ∀ c ∈ m, c.1 ≤ fuseAddr ∧ c.2 ≠ Memory.unlisted := by
  simp [Memory.wf]

theorem memory_wf_write {m : Memory} (a : Nat) (v : Payload) (h : m.wf = true) :
    (m.write a v).wf = true := by
  obtain ⟨hr, hm⟩ := memory_wf_iff.1 h
  unfold Memory.write
  split
  · exact h
  · split
    · exact memory_wf_iff.2 ⟨rising_filter _ hr, fun c hc => hm c (List.mem_of_mem_filter hc)⟩
    · refine memory_wf_iff.2 ⟨rising_put _ _ hr, fun c hc => ?_⟩
      rcases mem_put hc with rfl | hc
      · exact ⟨by simp only; omega, by assumption⟩
      · exact hm c hc

theorem memory_wf_bulkErase {m : Memory} (h : m.wf = true) : m.bulkErase.wf = true := by
  obtain ⟨hr, hm⟩ := memory_wf_iff.1 h
  exact memory_wf_iff.2 ⟨rising_filter _ hr, fun c hc => hm c (List.mem_of_mem_filter hc)⟩

/-- After a bulk erase the erased addresses read blank (R76). -/
theorem memory_read_bulkErase (m : Memory) (a : Nat) (ha : a < 0x2000 ∨ a = fuseAddr) :
    m.bulkErase.read a = blank := by
  have : ∀ m : Memory, Sparse.find m.bulkErase a = none := by
    intro m
    induction m with
    | nil => rfl
    | cons c m ih =>
      simp only [Memory.bulkErase] at ih ⊢
      rw [List.filter_cons]
      split
      · rename_i hc
        simp only [Bool.and_eq_true, decide_eq_true_eq] at hc
        have : c.1 ≠ a := by rcases ha with ha | ha <;> omega
        rw [Sparse.find, if_neg this, ih]
      · exact ih
  simp [Memory.read, this m, Memory.unlisted]

theorem image_wf_fill {size : Nat} {m : Image} (a : Nat) (v : Word) (h : Image.wf size m = true) :
    Image.wf size (m.fill size a v) = true := by
  have h' : Sparse.rising m = true ∧ ∀ c ∈ m, c.1 < size := by simpa [Image.wf] using h
  unfold Image.fill
  split
  · have : Sparse.rising (Sparse.put m a v) = true ∧ ∀ c ∈ Sparse.put m a v, c.1 < size := by
      refine ⟨rising_put _ _ h'.1, fun c hc => ?_⟩
      rcases mem_put hc with rfl | hc
      · assumption
      · exact h'.2 c hc
    simpa [Image.wf] using this
  · exact h

theorem image_wf_nil (size : Nat) : Image.wf size [] = true := rfl

/-! ### The reference target's memory -/

theorem programRow_mem_wf {t : RefTarget} (h : t.mem.wf = true) : t.programRow.mem.wf = true := by
  have : ∀ (l : List (Fin 16)) (m : Memory), m.wf = true → (l.foldl t.programWord m).wf = true := by
    intro l
    induction l with
    | nil => exact fun m hm => hm
    | cons j l ih =>
      intro m hm
      apply ih
      unfold RefTarget.programWord
      dsimp only
      split
      · exact memory_wf_write _ _ hm
      · exact hm
  exact this _ _ h

theorem command_mem_wf {c : Codes} {t : RefTarget} {code : Code} (h : t.mem.wf = true) :
    (t.command c code).mem.wf = true := by
  unfold RefTarget.command
  dsimp only
  split_ifs
  case pos => exact h
  case pos => exact h
  case pos => exact h
  case pos => exact h
  case pos => exact h
  case pos => exact programRow_mem_wf (t := { t with phase := .command [] }) h
  case pos => exact memory_wf_bulkErase h
  case neg => exact h

theorem clockFall_mem_wf {p : Params} {t : RefTarget} {b : Level} (h : t.mem.wf = true) :
    (t.clockFall p b).mem.wf = true := by
  unfold RefTarget.clockFall
  split
  · exact h
  · exact h
  · split
    · unfold RefTarget.keyReceived; split <;> exact h
    · exact h
  · split
    · exact command_mem_wf h
    · exact h
  · split
    · unfold RefTarget.dataFrame; dsimp only; split <;> exact h
    · exact h
  · split <;> exact h

theorem seeMclr_mem {t : RefTarget} (l : Option Level) : (t.seeMclr l).mem = t.mem := by
  unfold RefTarget.seeMclr
  split
  · rfl
  · rfl
  · split <;> rfl

/-- The canonical form of a reference target's memory, if there is one. -/
def Target.MemWf (t : Target) : Prop := ∀ r, t.ref = some r → r.mem.wf = true

theorem observe_memWf {p : Params} {before after : Pins} {t : Target} (h : t.MemWf) :
    (t.observe p before after).MemWf := by
  unfold Target.observe
  split
  · exact h
  · rename_i r hr
    have hm : (r.seeMclr after.mclr.driven).mem.wf = true := by
      rw [seeMclr_mem]; exact h r hr
    dsimp only
    split
    · split <;> (intro q hq; simp only [Option.some.injEq] at hq; subst hq; exact clockFall_mem_wf hm)
    · intro q hq; simp only [Option.some.injEq] at hq; subst hq; exact hm

theorem answer_ref (t : Target) : t.answer.2.ref = t.ref := by
  unfold Target.answer Target.free
  split
  · split <;> rfl
  · split <;> rfl

theorem wire_emitAll_memWf {p : Params} {w : Wire} (es : List PinEvent) (h : w.target.MemWf) :
    (w.emitAll p es).target.MemWf := by
  induction es generalizing w with
  | nil => exact h
  | cons e es ih => exact ih (w := w.emit p e) (observe_memWf h)

end Sys2Proof.Machine
end

