-- ==== Sys2Proof/Laws/Ops.lean ====
section
/-! SUPPORT. One lemma per shared operation that says once everything it does: its result as an update of
the state it started in. Later proofs cite these and unfold no operation. -/

namespace Sys2Proof.Machine

/-! ### Bits in time order -/

theorem bitsLsbFirst_setWidth {w : Nat} (v : BitVec w) (w' n : Nat) (h : n ≤ w') :
    bitsLsbFirst (v.setWidth w') n = bitsLsbFirst v n := by
  unfold bitsLsbFirst
  refine List.map_congr_left fun i hi => ?_
  have : i < w' := by have := List.mem_range.1 hi; omega
  simp [this]

theorem shiftOutBits_setWidth (p : Params) {w : Nat} (v : BitVec w) (w' n : Nat) (h : n ≤ w') :
    shiftOutBits p (v.setWidth w') n = shiftOutBits p v n := by
  unfold shiftOutBits; rw [bitsLsbFirst_setWidth v w' n h]

theorem bitsLsbFirst_succ {w : Nat} (v : BitVec w) (n : Nat) :
    bitsLsbFirst v (n + 1) = bitsLsbFirst v n ++ [v.getLsbD n] := by
  simp [bitsLsbFirst, List.range_succ]

theorem bitsLsbFirst_length {w : Nat} (v : BitVec w) (n : Nat) : (bitsLsbFirst v n).length = n := by
  simp [bitsLsbFirst]

theorem getLsbD_setBit (w : Word) (i j : Nat) (b : Bool) (hi : i < 16) :
    (setBit w i b).getLsbD j = if j = i then b else w.getLsbD j := by
  simp only [setBit, BitVec.getLsbD_or, BitVec.getLsbD_and, BitVec.getLsbD_not, BitVec.getLsbD_shiftLeft,
    BitVec.getLsbD_setWidth, BitVec.getLsbD_ofBool]
  by_cases h : j = i
  · subst h; simp [hi]
  · by_cases hj : j < 16
    · by_cases hlt : j < i
      · simp [h, hj, hlt]
      · have h1 : j - i ≠ 0 := by omega
        simp [h, hj, hlt, h1]
    · simp [hj, h, BitVec.getLsbD_of_ge w j (by omega)]

/-! ### The shadow pointer -/

theorem incrementPointer_phase (q : Sequencer) (f : Phase) :
    incrementPointer { q with phase := f } = { incrementPointer q with phase := f } := by
  unfold incrementPointer
  dsimp only
  split
  · split <;> rfl
  · rfl

theorem shadowUpdate_phase (c : Codes) (cmd : Code) (q : Sequencer) (f : Phase) :
    shadowUpdate c cmd { q with phase := f } = { shadowUpdate c cmd q with phase := f } := by
  unfold shadowUpdate
  split
  · rfl
  · split
    · rfl
    · split
      · exact incrementPointer_phase q f
      · split <;> rfl

/-- Everything `ShadowUpdate` can do to the sequencer's registers beside `AP` and `AP_KNOWN`. -/
theorem shadowUpdate_session (c : Codes) (cmd : Code) (q : Sequencer) :
    (shadowUpdate c cmd q).session = q.session := by
  unfold shadowUpdate incrementPointer
  split_ifs <;> rfl

theorem shadowUpdate_phase_eq (c : Codes) (cmd : Code) (q : Sequencer) :
    (shadowUpdate c cmd q).phase = q.phase := by
  unfold shadowUpdate incrementPointer
  split_ifs <;> rfl

/-- A known pointer stays in the ranges the block vouches for (R172, D11). -/
theorem shadowUpdate_pointer (c : Codes) (cmd : Code) (q : Sequencer)
    (h : q.apKnown = true → q.ap.toNat ≤ 0x2007) :
    (shadowUpdate c cmd q).apKnown = true → (shadowUpdate c cmd q).ap.toNat ≤ 0x2007 := by
  unfold shadowUpdate incrementPointer
  split_ifs with h1 h2 h3 h4 h5 h6
  · exact fun _ => Nat.zero_le _
  · exact fun _ => (by decide : configBase.toNat ≤ 0x2007)
  · intro hk; cases hk
  · intro _
    have hb := h h4
    rw [not_or, BitVec.not_le, BitVec.lt_def] at h5
    have h0 : (0x2007#16).toNat = 0x2007 := rfl
    have h1 : (q.ap + 1).toNat = q.ap.toNat + 1 := by
      rw [BitVec.toNat_add]; simp; omega
    simp only [h1]; omega
  · exact h
  · exact h
  · intro hk; cases hk

/-! ### The bit-link primitives -/

/-- All that `SENDCMD` does (R112). -/
theorem sendCommand_eq (cmd : Code) (d : Nat) (s : State) :
    sendCommand cmd d s =
      { s with
        wire := s.wire.emitAll s.params (commandEvents s.params cmd d)
        data := { s.data with txw := cmd.setWidth 32, bitcnt := 5 }
        seq := { shadowUpdate s.params.codes cmd s.seq with phase := .idle }
        status := .ok } := by
  unfold sendCommand State.finish State.emitAll State.shiftOut State.begin commandEvents
  dsimp only
  rw [wire_emitAll_append, shiftOutBits_setWidth s.params cmd 32 cmdBits (by decide), shadowUpdate_phase]
  rfl

/-- All that `WRDATA` does (R114). -/
theorem writeData_eq (word : Word) (s : State) :
    writeData word s =
      { s with
        wire := s.wire.emitAll s.params (dataOutEvents s.params word)
        data := { s.data with txw := (frameWord word).setWidth 32, bitcnt := 15 }
        seq := { s.seq with phase := .idle }
        status := .ok } := by
  unfold writeData State.finish State.emitAll State.shiftOut State.begin dataOutEvents
  dsimp only
  rw [wire_emitAll_append, shiftOutBits_setWidth s.params (frameWord word) 32 dataBits (by decide)]
  rfl

/-- The raw word and the wire at the end of the sixteen samples of `RDDATA` (R116). -/
abbrev readSamples (given : Option Word) (s : State) : Word × Wire := Wire.readFrame s.params given s.wire

/-- All that `RDDATA` does, in terms of the word its samples assemble to (R116). -/
theorem readData_eq (given : Option Word) (s : State) :
    readData given s =
      { s with
        wire := (readSamples given s).2.emitAll s.params [.dir .data .output]
        data := { s.data with
          rxw := (readSamples given s).1, bitcnt := 15, res := unframeWord (readSamples given s).1 }
        seq := { s.seq with phase := .idle }
        status := .ok } := by
  unfold readData State.finish State.emitAll State.begin
  rfl

/-- The pins after a data-in frame's clock pulses: CLK at 0, nothing else moved. -/
def Pins.clkLow (ps : Pins) : Pins := { ps with clk := { ps.clk with lvl := false } }

theorem sample_facts (p : Params) (w : Wire) (f : Option Level) :
    (w.sample p f).2.trace = w.trace ++ [.sample .data (w.sample p f).1] ∧
      (w.sample p f).2.pins = w.pins := by
  unfold Wire.sample
  split
  · exact ⟨rfl, rfl⟩
  · split <;> exact ⟨rfl, rfl⟩

theorem sample_memWf {p : Params} {w : Wire} (f : Option Level) (h : w.target.MemWf) :
    (w.sample p f).2.target.MemWf := by
  unfold Wire.sample
  split
  · exact observe_memWf h
  · split
    · exact observe_memWf h
    · exact observe_memWf (fun r hr => h r (answer_ref _ ▸ hr))

/-- All that `ShiftInBit` does (R111). -/
theorem shiftInBit_facts (p : Params) (w : Wire) (f : Option Level) :
    (w.shiftInBit p f).2.trace = w.trace ++ shiftInBitEvents p (w.shiftInBit p f).1 ∧
      (w.shiftInBit p f).2.pins = w.pins.clkLow := by
  unfold Wire.shiftInBit
  have h := sample_facts p (w.emitAll p [.set .clk true, .delay p.tCo]) f
  dsimp only
  rw [wire_emitAll_trace, wire_emitAll_pins, h.1, h.2, wire_emitAll_trace, wire_emitAll_pins]
  exact ⟨by simp [shiftInBitEvents], rfl⟩

theorem shiftInBit_memWf {p : Params} {w : Wire} (f : Option Level) (h : w.target.MemWf) :
    (w.shiftInBit p f).2.target.MemWf :=
  wire_emitAll_memWf _ (sample_memWf _ (wire_emitAll_memWf _ h))

theorem shiftIn_succ (p : Params) (given : Option Word) (n : Nat) (w : Wire) :
    Wire.shiftIn p given (n + 1) w =
      (setBit (Wire.shiftIn p given n w).1 n
          ((Wire.shiftIn p given n w).2.shiftInBit p (given.map fun g => g.getLsbD n)).1,
        ((Wire.shiftIn p given n w).2.shiftInBit p (given.map fun g => g.getLsbD n)).2) := rfl

/-- Bits at or above `n` are 0 after `n` samples. -/
theorem shiftIn_high (p : Params) (given : Option Word) (n : Nat) (w : Wire) (hn : n ≤ 16) (j : Nat)
    (hj : n ≤ j) : (Wire.shiftIn p given n w).1.getLsbD j = false := by
  induction n with
  | zero => simp [Wire.shiftIn]
  | succ n ih =>
    rw [shiftIn_succ, getLsbD_setBit _ _ _ _ (by omega), if_neg (by omega)]
    exact ih (by omega) (by omega)

/-- All that `n` samples do to the trace (R116). -/
theorem shiftIn_trace (p : Params) (given : Option Word) (n : Nat) (w : Wire) (hn : n ≤ 16) :
    (Wire.shiftIn p given n w).2.trace = w.trace ++ shiftInEvents p (Wire.shiftIn p given n w).1 n := by
  induction n with
  | zero => simp [Wire.shiftIn, shiftInEvents, bitsLsbFirst]
  | succ n ih =>
    rw [shiftIn_succ]
    dsimp only
    rw [(shiftInBit_facts _ _ _).1, ih (by omega), List.append_assoc]
    congr 1
    unfold shiftInEvents
    rw [bitsLsbFirst_succ, List.flatMap_append, getLsbD_setBit _ _ _ _ (by omega), if_pos rfl]
    congr 1
    · refine congrArg (List.flatMap _) ?_
      refine List.map_congr_left fun i hi => ?_
      have := List.mem_range.1 hi
      rw [getLsbD_setBit _ _ _ _ (by omega), if_neg (by omega)]

/-- All that `n + 1` samples do to the pins (R116). -/
theorem shiftIn_pins (p : Params) (given : Option Word) (n : Nat) (w : Wire) :
    (Wire.shiftIn p given (n + 1) w).2.pins = w.pins.clkLow := by
  induction n with
  | zero => exact (shiftInBit_facts _ _ _).2
  | succ n ih => rw [shiftIn_succ]; dsimp only; rw [(shiftInBit_facts _ _ _).2, ih]; rfl

theorem shiftIn_memWf {p : Params} {w : Wire} (given : Option Word) (n : Nat) (h : w.target.MemWf) :
    (Wire.shiftIn p given n w).2.target.MemWf := by
  induction n with
  | zero => exact h
  | succ n ih => exact shiftInBit_memWf _ ih

/-- The trace of a data-in frame (R116). -/
theorem readSamples_trace (given : Option Word) (s : State) :
    (readSamples given s).2.trace ++ [.dir .data .output] =
      s.wire.trace ++ dataInEvents s.params (readSamples given s).1 := by
  unfold readSamples Wire.readFrame
  rw [shiftIn_trace _ _ _ _ (by decide), wire_emitAll_trace]
  simp [dataInEvents]

/-- The pins at the end of the samples: DATA released, CLK at 0. -/
theorem readSamples_pins (given : Option Word) (s : State) :
    (readSamples given s).2.pins =
      { s.wire.pins.clkLow with data := { s.wire.pins.data with dir := .input } } := by
  unfold readSamples Wire.readFrame
  rw [show dataBits = 15 + 1 from rfl, shiftIn_pins, wire_emitAll_pins]
  rfl

/-- A frame given as such is the word its samples assemble to (R86). -/
theorem readSamples_given (raw : Word) (s : State) : (readSamples (some raw) s).1 = raw := by
  have key : ∀ n, n ≤ 16 → ∀ j, (Wire.shiftIn s.params (some raw) n
      (s.wire.emitAll s.params [.dir .data .input])).1.getLsbD j = (decide (j < n) && raw.getLsbD j) := by
    intro n
    induction n with
    | zero => intro _ j; simp [Wire.shiftIn]
    | succ n ih =>
      intro hn j
      have hd : (Wire.shiftIn s.params (some raw) n
          (s.wire.emitAll s.params [.dir .data .input])).2.pins.data.dir = .input := by
        cases n with
        | zero => rfl
        | succ m => rw [shiftIn_pins]; rfl
      have hb : ((Wire.shiftIn s.params (some raw) n
          (s.wire.emitAll s.params [.dir .data .input])).2.shiftInBit s.params
            ((some raw).map fun g => g.getLsbD n)).1 = raw.getLsbD n := by
        unfold Wire.shiftInBit Wire.sample
        simp [Pins.after, Pins.apply, Pins.put, Pins.get, PinReg.driven, hd]
      rw [shiftIn_succ]
      dsimp only
      rw [getLsbD_setBit _ _ _ _ (by omega), hb, ih (by omega)]
      by_cases h : j = n
      · subst h; simp
      · by_cases hlt : j < n
        · simp [h, hlt, show j < n + 1 by omega]
        · simp [h, hlt, show ¬ j < n + 1 by omega]
  unfold readSamples Wire.readFrame
  refine BitVec.eq_of_getLsbD_eq fun j hj => ?_
  rw [key dataBits (by decide) j]
  simp [dataBits, hj]

/-! ### The sequencer operations -/

/-- All that the key frame does (R88). -/
theorem shiftKey_eq (s : State) :
    shiftKey s =
      { s with
        wire := s.wire.emitAll s.params (keyEvents s.params)
        data := { s.data with txw := s.params.key, bitcnt := 32 } } := by
  unfold shiftKey State.emitAll State.shiftOut keyEvents
  dsimp only
  rw [wire_emitAll_append, show BitVec.ofNat 6 keyBits = 32 from rfl]

/-- All that `ENTER` does (R130). -/
theorem enterProgramMode_eq (s : State) :
    enterProgramMode s =
      { s with
        wire := s.wire.emitAll s.params (enterEvents s.params)
        data := { s.data with txw := s.params.key, bitcnt := 32 }
        seq := { s.seq with session := .programMode, apKnown := false, phase := .idle }
        status := .ok } := by
  unfold enterProgramMode
  dsimp only
  rw [shiftKey_eq]
  unfold enterEvents State.finish State.emitAll State.begin
  rw [wire_emitAll_append]

/-- All that `EXIT` does (R134). -/
theorem exitProgramMode_eq (s : State) :
    exitProgramMode s =
      { s with
        wire := s.wire.emitAll s.params exitEvents
        seq := { s.seq with session := .unpowered, apKnown := false, phase := .idle }
        status := .ok } := rfl

/-- `AP` and `AP_KNOWN` after `k` increments of the shadow pointer (R138, R172). -/
def pointerAfter (c : Codes) : Nat → Sequencer → Sequencer
  | 0, q => q
  | k + 1, q => shadowUpdate c c.incrementAddress (pointerAfter c k q)

/-- All that `k + 1` increments do (R138). -/
theorem incrementTimes_eq (k : Nat) (s : State) :
    incrementTimes (k + 1) s =
      { s with
        wire := s.wire.emitAll s.params (incrementEvents s.params (k + 1))
        data := { s.data with txw := s.params.codes.incrementAddress.setWidth 32, bitcnt := 5 }
        seq := { pointerAfter s.params.codes (k + 1) s.seq with phase := .idle }
        status := .ok } := by
  induction k with
  | zero =>
    rw [show incrementTimes 1 s = sendCommand s.params.codes.incrementAddress s.params.tDly s from rfl,
      sendCommand_eq]
    simp [incrementEvents, pointerAfter]
  | succ k ih =>
    rw [incrementTimes, ih, incrementAddressPointer, sendCommand_eq]
    dsimp only
    rw [shadowUpdate_phase]
    have : incrementEvents s.params (k + 1 + 1) = incrementEvents s.params (k + 1) ++
        commandEvents s.params s.params.codes.incrementAddress s.params.tDly := by
      unfold incrementEvents
      rw [List.replicate_succ', List.flatten_append]; simp
    rw [this, wire_emitAll_append]
    rfl

/-! ### Decode and lookup -/

/-- All that `Resolve(W)` does (R152 to R155). -/
theorem resolve_eq (w : Word) (s : State) :
    resolve w s = match lookup s.params.table (deviceIdOf w) with
      | some r => { s with
          dev := ⟨true, r.name, r.codeMemorySize, deviceRevOf w, deviceIdOf w⟩
          imgAlloc := true, image := []
          seq := { s.seq with phase := .idle }, status := .ok }
      | none => { s with
          dev := ⟨false, "", 0, 0, deviceIdOf w⟩
          seq := { s.seq with phase := .idle }, status := .deviceNotRecognized } := by
  unfold resolve
  dsimp only [begin_params]
  cases lookup s.params.table (deviceIdOf w) <;> rfl

theorem lookup_mem {t : List Row} {id : BitVec 9} {r : Row} (h : lookup t id = some r) :
    r ∈ t ∧ r.deviceId = id := by
  induction t with
  | nil => cases h
  | cons q t ih =>
    rw [lookup] at h
    split at h
    · cases h; exact ⟨List.mem_cons_self, by assumption⟩
    · exact ⟨List.mem_cons_of_mem _ (ih h).1, (ih h).2⟩

/-! ### The fetch -/

theorem fetch_cons (e : Encoded) (es : List Encoded) (s : State) (h : s.requests = e :: es) :
    fetch s = some (e, { s with requests := es }) := by
  unfold fetch; rw [h]

theorem fetch_nil (s : State) (h : s.requests = []) : fetch s = none := by
  unfold fetch; rw [h]

end Sys2Proof.Machine
end

