-- ==== Sys2Proof/Laws/Reads.lean ====
section
/-! SUPPORT. What a data-in frame reads from the oracle's queue (R65, R86), and all that `RDDEVID` does
(R140). -/

namespace Sys2Proof.Machine

/-! ### Reading the oracle -/

/-- One sample while DATA is released and the oracle has a level queued (R65). -/
theorem shiftInBit_oracle (p : Params) (w : Wire) (b : Level) (bs : List Level)
    (hd : w.pins.data.dir = .input) (hr : w.target.ref = none) (ha : w.target.answers = b :: bs) :
    (w.shiftInBit p none).1 = b ∧
      (w.shiftInBit p none).2.target = { w.target with answers := bs } := by
  have h1 : (w.emitAll p [.set .clk true, .delay p.tCo]).target = w.target := wire_emitAll_oracle _ _ _ hr
  have h2 : (w.emitAll p [.set .clk true, .delay p.tCo]).pins.data.driven = none := by
    rw [wire_emitAll_pins]
    simp [Pins.after, Pins.apply, Pins.put, Pins.get, PinReg.driven, hd]
  have h3 : ((w.emitAll p [.set .clk true, .delay p.tCo]).sample p none).1 = b ∧
      ((w.emitAll p [.set .clk true, .delay p.tCo]).sample p none).2.target =
        { w.target with answers := bs } := by
    unfold Wire.sample
    rw [h2, h1]
    refine ⟨by simp [Target.answer, hr, ha], ?_⟩
    simp only [Wire.emit, Target.answer, hr, ha]
    rw [observe_oracle]
    rfl
  unfold Wire.shiftInBit
  refine ⟨h3.1, ?_⟩
  dsimp only
  rw [wire_emitAll_oracle, h3.2]
  rw [h3.2]; exact hr

theorem shiftIn_dir (p : Params) (given : Option Word) (n : Nat) (w : Wire) :
    (Wire.shiftIn p given n w).2.pins.data = w.pins.data := by
  cases n with
  | zero => rfl
  | succ n => rw [shiftIn_pins]; rfl

/-- `n` samples from the oracle's queue: the levels come in order, and only they are taken (R65). -/
theorem shiftIn_oracle (p : Params) (n : Nat) (w : Wire) (hn : n ≤ 16)
    (hd : w.pins.data.dir = .input) (hr : w.target.ref = none) (ha : n ≤ w.target.answers.length) :
    (∀ j, j < n → some ((Wire.shiftIn p none n w).1.getLsbD j) = w.target.answers[j]?) ∧
      (Wire.shiftIn p none n w).2.target = { w.target with answers := w.target.answers.drop n } := by
  induction n with
  | zero => exact ⟨fun j hj => absurd hj (Nat.not_lt_zero j), rfl⟩
  | succ n ih =>
    obtain ⟨h1, h2⟩ := ih (by omega) (by omega)
    have hcons : w.target.answers.drop n = w.target.answers[n] :: w.target.answers.drop (n + 1) :=
      List.drop_eq_getElem_cons (by omega)
    obtain ⟨h3, h4⟩ := shiftInBit_oracle p (Wire.shiftIn p none n w).2 w.target.answers[n]
      (w.target.answers.drop (n + 1)) (by rw [shiftIn_dir]; exact hd) (by rw [h2]; exact hr)
      (by rw [h2]; exact hcons)
    rw [shiftIn_succ]
    refine ⟨fun j hj => ?_, ?_⟩
    · dsimp only [Option.map_none]
      rw [getLsbD_setBit _ _ _ _ (by omega)]
      by_cases h : j = n
      · subst h
        rw [if_pos rfl, h3]
        exact (List.getElem?_eq_getElem (by omega)).symm
      · rw [if_neg h]; exact h1 j (by omega)
    · dsimp only [Option.map_none]
      rw [h4, h2]

theorem getLsbD_ofBits (l : List Bool) (w j : Nat) (hj : j < w) :
    (ofBitsLsbFirst w l).getLsbD j = (l[j]?).getD false := by
  induction l generalizing j with
  | nil => simp [ofBitsLsbFirst]
  | cons b l ih =>
    simp only [ofBitsLsbFirst, BitVec.getLsbD_or, BitVec.getLsbD_shiftLeft, BitVec.getLsbD_setWidth,
      BitVec.getLsbD_ofBool]
    cases j with
    | zero => simp [hj]
    | succ j =>
      have := ih j (by omega)
      simp [hj, this]

/-- A data-in frame read from an oracle that has at least sixteen levels queued (R65, R86). -/
theorem readFrame_oracle (p : Params) (w : Wire) (hr : w.target.ref = none)
    (ha : 16 ≤ w.target.answers.length) :
    (Wire.readFrame p none w).1 = ofBitsLsbFirst 16 (w.target.answers.take dataBits) ∧
      (Wire.readFrame p none w).2.target = { w.target with answers := w.target.answers.drop 16 } := by
  have ht : (w.emitAll p [.dir .data .input]).target = w.target := wire_emitAll_oracle _ _ _ hr
  have hd : (w.emitAll p [.dir .data .input]).pins.data.dir = .input := by
    rw [wire_emitAll_pins]; rfl
  obtain ⟨h1, h2⟩ := shiftIn_oracle p 16 _ (by decide) hd (ht ▸ hr) (ht ▸ ha)
  rw [ht] at h1 h2
  refine ⟨BitVec.eq_of_getLsbD_eq fun j hj => ?_, h2⟩
  rw [getLsbD_ofBits _ _ _ hj]
  have := h1 j hj
  unfold Wire.readFrame dataBits
  rw [List.getElem?_take_of_lt hj, ← this]
  rfl

/-- A data-in frame whose levels an instruction gives takes nothing from the oracle (R65, log entry 5). -/
theorem readFrame_given_oracle (p : Params) (raw : Word) (w : Wire) (hr : w.target.ref = none) :
    (Wire.readFrame p (some raw) w).2.target = w.target := by
  have bit : ∀ (b : Level) (w : Wire), w.target.ref = none →
      (w.shiftInBit p (some b)).2.target = w.target := by
    intro b w hr
    have h1 : (w.emitAll p [.set .clk true, .delay p.tCo]).target = w.target := wire_emitAll_oracle _ _ _ hr
    have h2 : ((w.emitAll p [.set .clk true, .delay p.tCo]).sample p (some b)).2.target = w.target := by
      unfold Wire.sample
      split <;> exact (observe_oracle p (h1 ▸ hr)).trans h1
    exact (wire_emitAll_oracle _ _ _ (h2 ▸ hr)).trans h2
  have ht : (w.emitAll p [.dir .data .input]).target = w.target := wire_emitAll_oracle _ _ _ hr
  have bits : ∀ n, (Wire.shiftIn p (some raw) n (w.emitAll p [.dir .data .input])).2.target = w.target := by
    intro n
    induction n with
    | zero => exact ht
    | succ n ih => exact (bit _ _ (ih ▸ hr)).trans ih
  exact bits dataBits

/-! ### `RDDEVID` -/

/-- The sequencer's registers at the end of `RDDEVID`'s frames (R140). -/
def deviceIdPointer (c : Codes) (k : Nat) (q : Sequencer) : Sequencer :=
  { shadowUpdate c c.readFromProgram (pointerAfter c k (shadowUpdate c c.loadConfig q)) with phase := .idle }

theorem pointerAfter_phase (c : Codes) (k : Nat) (q : Sequencer) (f : Phase) :
    pointerAfter c k { q with phase := f } = { pointerAfter c k q with phase := f } := by
  induction k with
  | zero => rfl
  | succ k ih => rw [pointerAfter, ih, shadowUpdate_phase]; rfl

theorem pointerAfter_session (c : Codes) (k : Nat) (q : Sequencer) :
    (pointerAfter c k q).session = q.session := by
  induction k with
  | zero => rfl
  | succ k ih => rw [pointerAfter, shadowUpdate_session, ih]

theorem pointerAfter_pointer (c : Codes) (k : Nat) (q : Sequencer)
    (h : q.apKnown = true → q.ap.toNat ≤ 0x2007) :
    (pointerAfter c k q).apKnown = true → (pointerAfter c k q).ap.toNat ≤ 0x2007 := by
  induction k with
  | zero => exact h
  | succ k ih => exact shadowUpdate_pointer _ _ _ ih

theorem incrementTimes_params (k : Nat) (s : State) : (incrementTimes k s).params = s.params := by
  cases k with
  | zero => rfl
  | succ k => rw [incrementTimes_eq]

/-- All that a command does after any number of increments (R138, R140): what the increments left in
`TXW` and `BITCNT` is overwritten. -/
theorem sendCommand_incrementTimes (cmd : Code) (d k : Nat) (s : State) :
    sendCommand cmd d (incrementTimes k s) =
      { s with
        wire := s.wire.emitAll s.params (incrementEvents s.params k ++ commandEvents s.params cmd d)
        data := { s.data with txw := cmd.setWidth 32, bitcnt := 5 }
        seq := { shadowUpdate s.params.codes cmd (pointerAfter s.params.codes k s.seq) with phase := .idle }
        status := .ok } := by
  cases k with
  | zero => rw [incrementTimes, sendCommand_eq]; rfl
  | succ k =>
    rw [incrementTimes_eq, sendCommand_eq]
    dsimp only
    rw [shadowUpdate_phase, wire_emitAll_append]

/-- The word and the wire of `RDDEVID`'s data-in frame (R140). -/
abbrev deviceIdSamples (s : State) : Word × Wire :=
  Wire.readFrame s.params none (s.wire.emitAll s.params (deviceIdPrelude s.params))

/-- All that `RDDEVID` does: its frames, then `Resolve` of the word it read (R140). -/
theorem readDeviceId_eq (s : State) :
    readDeviceId s = resolve (unframeWord (deviceIdSamples s).1)
      { s with
        wire := (deviceIdSamples s).2.emitAll s.params [.dir .data .output]
        data := {
          txw := s.params.codes.readFromProgram.setWidth 32, rxw := (deviceIdSamples s).1,
          bitcnt := 15, res := unframeWord (deviceIdSamples s).1 }
        seq := deviceIdPointer s.params.codes s.params.idIncrements s.seq
        status := .ok } := by
  unfold readDeviceId gotoConfig
  dsimp only
  rw [sendCommand_eq s.params.codes.loadConfig, writeData_eq]
  dsimp only
  rw [incrementTimes_params]
  rw [sendCommand_incrementTimes, readData_eq]
  dsimp only
  rw [pointerAfter_phase, shadowUpdate_phase]
  rw [← wire_emitAll_append, ← wire_emitAll_append]
  unfold deviceIdSamples readSamples deviceIdPrelude deviceIdPointer
  simp only [List.append_assoc]

/-! ### The step -/

/-- All that a step that answers a next state can have done. -/
theorem step_cases {s t : State} (h : step s = .next t) :
    (s.resetPending = true ∧ t = s.blockReset) ∨
      (s.resetPending = false ∧ s.requests = [] ∧ t = s) ∨
      ∃ e es i, s.resetPending = false ∧ s.requests = e :: es ∧ decode s.params e = .ok i ∧
        exec i { s with requests := es } = .next t := by
  unfold step at h
  split at h
  · cases h; exact .inl ⟨by assumption, rfl⟩
  · refine .inr ?_
    cases hr : s.requests with
    | nil => rw [fetch_nil s hr] at h; cases h; exact .inl ⟨by assumption, rfl, rfl⟩
    | cons e es =>
      rw [fetch_cons e es s hr] at h
      dsimp only at h
      split at h
      · exact .inr ⟨e, es, _, by assumption, rfl, by assumption, h⟩
      · cases h

end Sys2Proof.Machine
end

