-- ==== Sys2Proof/Laws/Wire.lean ====
section
/-! SUPPORT. What a reader of the wires gets from the operations' event lists, piece by piece: the pins
after a frame, the bits at the falling edges, the rising edges, the samples, lengths and durations. -/

namespace Sys2Proof.Machine

/-! ### Reading a concatenation -/

theorem falls_append (ps : Pins) (a b : List PinEvent) :
    dataAtFalls ps (a ++ b) = dataAtFalls ps a ++ dataAtFalls (ps.after a) b := by
  induction a generalizing ps with
  | nil => rfl
  | cons e a ih => simp only [List.cons_append, dataAtFalls, ih, after_cons]; split <;> rfl

theorem rises_append (ps : Pins) (a b : List PinEvent) :
    clockRises ps (a ++ b) = clockRises ps a + clockRises (ps.after a) b := by
  induction a generalizing ps with
  | nil => simp [clockRises]
  | cons e a ih => simp only [List.cons_append, clockRises, ih, after_cons]; omega

theorem released_append (ps : Pins) (a b : List PinEvent) :
    samplesReleased ps (a ++ b) = (samplesReleased ps a && samplesReleased (ps.after a) b) := by
  induction a generalizing ps with
  | nil => rfl
  | cons e a ih => simp only [List.cons_append, samplesReleased, ih, after_cons, Bool.and_assoc]

theorem duration_append (a b : List PinEvent) : duration (a ++ b) = duration a + duration b := by
  simp [duration]

theorem samples_append (a b : List PinEvent) :
    sampledLevels (a ++ b) = sampledLevels a ++ sampledLevels b := by simp [sampledLevels]

/-! ### Bits shifted out (R110) -/

theorem falls_shiftOut (ps : Pins) (p : Params) (bs : List Bool) :
    dataAtFalls ps (bs.flatMap (shiftOutBit p)) = bs := by
  induction bs generalizing ps with
  | nil => rfl
  | cons b bs ih =>
    rw [List.flatMap_cons, falls_append, ih]
    obtain ⟨m, ⟨_, l⟩, d⟩ := ps
    cases l <;> rfl

theorem rises_shiftOut (ps : Pins) (h : ps.clk.lvl = false) (p : Params) (bs : List Bool) :
    clockRises ps (bs.flatMap (shiftOutBit p)) = bs.length := by
  induction bs generalizing ps with
  | nil => rfl
  | cons b bs ih =>
    rw [List.flatMap_cons, rises_append, ih _ rfl]
    simp [shiftOutBit, clockRises, PinEvent.isRise, Pins.apply, Pins.put, Pins.get, Nat.add_comm, h]

theorem length_shiftOut (p : Params) (bs : List Bool) :
    (bs.flatMap (shiftOutBit p)).length = 5 * bs.length := by
  induction bs with
  | nil => rfl
  | cons b bs ih => rw [List.flatMap_cons, List.length_append, ih]; simp [shiftOutBit]; omega

theorem duration_shiftOut (p : Params) (bs : List Bool) :
    duration (bs.flatMap (shiftOutBit p)) = bs.length * (p.tSetup + p.tHold) := by
  induction bs with
  | nil => simp [duration]
  | cons b bs ih =>
    rw [List.flatMap_cons, duration_append, ih]
    simp [shiftOutBit, duration, PinEvent.time, Nat.add_mul]; omega

theorem samples_shiftOut (p : Params) (bs : List Bool) :
    sampledLevels (bs.flatMap (shiftOutBit p)) = [] := by
  induction bs with
  | nil => rfl
  | cons b bs ih => rw [List.flatMap_cons, samples_append, ih]; rfl

theorem after_shiftOut (p : Params) (ps : Pins) (bs : List Bool) :
    ps.after (bs.flatMap (shiftOutBit p) ++ [.set .data false]) =
      if bs = [] then ps.apply (.set .data false) else ps.framed := by
  induction bs generalizing ps with
  | nil => rfl
  | cons b bs ih => rw [List.flatMap_cons, List.append_assoc, after_append, ih]; split <;> rfl

/-! ### Bits shifted in (R111) -/

theorem samples_shiftIn (p : Params) (bs : List Bool) :
    sampledLevels (bs.flatMap (shiftInBitEvents p)) = bs := by
  induction bs with
  | nil => rfl
  | cons b bs ih => rw [List.flatMap_cons, samples_append, ih]; rfl

theorem length_shiftIn (p : Params) (bs : List Bool) :
    (bs.flatMap (shiftInBitEvents p)).length = 5 * bs.length := by
  induction bs with
  | nil => rfl
  | cons b bs ih => rw [List.flatMap_cons, List.length_append, ih]; simp [shiftInBitEvents]; omega

theorem duration_shiftIn (p : Params) (bs : List Bool) :
    duration (bs.flatMap (shiftInBitEvents p)) = bs.length * (p.tCo + p.tHold) := by
  induction bs with
  | nil => simp [duration]
  | cons b bs ih =>
    rw [List.flatMap_cons, duration_append, ih]
    simp [shiftInBitEvents, duration, PinEvent.time, Nat.add_mul]; omega

/-- While DATA is released every sample is taken released, and DATA stays as it is (R249). -/
theorem released_shiftIn (ps : Pins) (h : ps.data.dir = .input) (p : Params) (bs : List Bool) :
    samplesReleased ps (bs.flatMap (shiftInBitEvents p)) = true ∧
      (ps.after (bs.flatMap (shiftInBitEvents p))).data = ps.data := by
  induction bs generalizing ps with
  | nil => exact ⟨rfl, rfl⟩
  | cons b bs ih =>
    rw [List.flatMap_cons, released_append, after_append]
    obtain ⟨h1, h2⟩ := ih (ps.after (shiftInBitEvents p b)) h
    refine ⟨?_, h2⟩
    rw [h1]
    simp [shiftInBitEvents, samplesReleased, PinEvent.released, Pins.apply, Pins.put, Pins.get, h]

theorem after_shiftIn (p : Params) (ps : Pins) (bs : List Bool) (h : bs ≠ []) :
    ps.after (bs.flatMap (shiftInBitEvents p)) = ps.clkLow := by
  induction bs generalizing ps with
  | nil => exact absurd rfl h
  | cons b bs ih =>
    rw [List.flatMap_cons, after_append]
    cases bs with
    | nil => rfl
    | cons c bs => rw [ih _ (by simp)]; rfl

/-! ### The pins after the frames -/

/-- A command frame leaves CLK and DATA at 0 and nothing else moved (R112). -/
theorem after_command (ps : Pins) (p : Params) (cmd : Code) (d : Nat) :
    ps.after (commandEvents p cmd d) = ps.framed := by
  have h : commandEvents p cmd d =
      ((bitsLsbFirst cmd 6).flatMap (shiftOutBit p) ++ [.set .data false]) ++ [.delay d] := by
    simp [commandEvents, shiftOutBits, cmdBits]
  rw [h, after_append, after_shiftOut, if_neg (by simp [bitsLsbFirst])]
  rfl

/-- A data-out frame leaves CLK and DATA at 0 and nothing else moved (R114). -/
theorem after_dataOut (ps : Pins) (p : Params) (word : Word) :
    ps.after (dataOutEvents p word) = ps.framed := by
  have h : dataOutEvents p word =
      (bitsLsbFirst (frameWord word) 16).flatMap (shiftOutBit p) ++ [.set .data false] := by
    simp [dataOutEvents, shiftOutBits, dataBits]
  rw [h, after_shiftOut, if_neg (by simp [bitsLsbFirst])]

/-- The key frame leaves CLK and DATA at 0 and nothing else moved (R88). -/
theorem after_key (ps : Pins) (p : Params) : ps.after (keyEvents p) = ps.framed := by
  have h : ∀ (bs : List Bool) (ps : Pins),
      ps.after (bs.flatMap (shiftOutBit p) ++ shiftOutBit p false) = ps.framed := by
    intro bs
    induction bs with
    | nil => intro ps; rfl
    | cons b bs ih => intro ps; rw [List.flatMap_cons, List.append_assoc, after_append, ih]; rfl
  exact h _ ps

/-- A data-in frame leaves CLK at 0 and DATA an output at its old level (R116). -/
theorem after_dataIn (ps : Pins) (p : Params) (raw : Word) :
    ps.after (dataInEvents p raw) = { ps.clkLow with data := { ps.data with dir := .output } } := by
  rw [dataInEvents, after_append, after_append, shiftInEvents,
    after_shiftIn _ _ _ (by simp [bitsLsbFirst, dataBits])]
  rfl

theorem incrementEvents_succ (p : Params) (k : Nat) :
    incrementEvents p (k + 1) =
      commandEvents p p.codes.incrementAddress p.tDly ++ incrementEvents p k := by
  simp [incrementEvents, List.replicate_succ]

theorem after_increments (ps : Pins) (p : Params) (k : Nat) :
    ps.after (incrementEvents p k) = if k = 0 then ps else ps.framed := by
  induction k generalizing ps with
  | zero => rfl
  | succ k ih => rw [incrementEvents_succ, after_append, after_command, ih]; split <;> rfl

/-- `RDDEVID`'s frames before its data-in frame leave CLK and DATA at 0 (R140). -/
theorem after_prelude (ps : Pins) (p : Params) : ps.after (deviceIdPrelude p) = ps.framed := by
  rw [deviceIdPrelude, after_append, after_command, after_append, after_append, after_increments,
    after_dataOut, after_command]
  split <;> rfl

/-! ### The operations on the wire -/

/-- What `RDDATA` does to the trace and the pins (R116). -/
theorem readData_wire (given : Option Word) (s : State) :
    (readData given s).wire.trace = s.wire.trace ++ dataInEvents s.params (readSamples given s).1 ∧
      (readData given s).wire.pins = s.wire.pins.after (dataInEvents s.params (readSamples given s).1) := by
  rw [readData_eq]
  refine ⟨?_, ?_⟩
  · simp only [wire_emitAll_trace]; exact readSamples_trace given s
  · simp only [wire_emitAll_pins, readSamples_pins, after_dataIn]; rfl

/-- `Resolve(W)` touches neither wire nor data path and ends the operation (R152 to R155). -/
theorem resolve_frame (w : Word) (s : State) :
    (resolve w s).wire = s.wire ∧ (resolve w s).data = s.data ∧ (resolve w s).params = s.params ∧
      (resolve w s).flags = s.flags ∧ (resolve w s).requests = s.requests ∧
      (resolve w s).responses = s.responses ∧ (resolve w s).seq = { s.seq with phase := .idle } := by
  rw [resolve_eq]; split <;> exact ⟨rfl, rfl, rfl, rfl, rfl, rfl, rfl⟩

/-- What `RDDEVID` does to the trace and the pins (R140). -/
theorem readDeviceId_wire (s : State) :
    (readDeviceId s).wire.trace = s.wire.trace ++ deviceIdEvents s.params (deviceIdSamples s).1 ∧
      (readDeviceId s).wire.pins =
        s.wire.pins.after (deviceIdEvents s.params (deviceIdSamples s).1) := by
  have h1 := readSamples_trace none { s with wire := s.wire.emitAll s.params (deviceIdPrelude s.params) }
  have h2 := readSamples_pins none { s with wire := s.wire.emitAll s.params (deviceIdPrelude s.params) }
  rw [readDeviceId_eq, (resolve_frame _ _).1]
  constructor
  · simp only [wire_emitAll_trace] at h1 ⊢
    rw [h1, deviceIdEvents, List.append_assoc]
  · simp only [wire_emitAll_pins] at h2 ⊢
    rw [h2, deviceIdEvents, after_append, after_dataIn]
    generalize s.wire.pins.after (deviceIdPrelude s.params) = q
    rfl

end Sys2Proof.Machine
end

