-- ==== Sys2Proof/Laws/Target.lean ====
section
/-! SUPPORT. The reference target on the wires (R70 to R76): what one shifted bit, one sampled bit and one
whole frame mean to it while MCLR is driven low. -/

namespace Sys2Proof.Machine

/-- A reference target that counts clock edges: MCLR is driven low, the clock is driven. -/
def Wire.Listening (w : Wire) (r : RefTarget) : Prop :=
  w.target.ref = some r ∧ r.phase ≠ .mclrHigh ∧ w.pins.mclr.driven = some false ∧
    w.pins.clk.dir = .output

theorem seeMclr_low {r : RefTarget} (h : r.phase ≠ .mclrHigh) : r.seeMclr (some false) = r := by
  simp [RefTarget.seeMclr, h]

theorem command_phase (c : Codes) (r : RefTarget) (code : Code) :
    (r.command c code).phase ≠ .mclrHigh := by
  unfold RefTarget.command; dsimp only; split_ifs <;> simp [RefTarget.programRow]

theorem clockFall_phase (p : Params) (r : RefTarget) (b : Bool) (h : r.phase ≠ .mclrHigh) :
    (r.clockFall p b).phase ≠ .mclrHigh := by
  unfold RefTarget.clockFall
  split
  · exact h
  · exact h
  · split
    · unfold RefTarget.keyReceived; split <;> simp
    · simp
  · split
    · exact command_phase _ _ _
    · simp
  · split
    · unfold RefTarget.dataFrame; dsimp only; split <;> simp [RefTarget.loadLatch]
    · simp
  · split <;> simp

theorem clockFalls_same {a b : Pins} (h : b.clk = a.clk) : clockFalls a b = false := by
  unfold clockFalls
  rw [h]
  cases a.clk.driven with
  | none => rfl
  | some v => cases v <;> rfl

/-- An event that moves neither MCLR nor makes the clock fall means nothing to the target. -/
theorem emit_quiet (p : Params) {w : Wire} {r : RefTarget} (h : w.Listening r) (e : PinEvent)
    (hm : (w.pins.apply e).mclr = w.pins.mclr) (hc : (w.pins.apply e).clk.dir = w.pins.clk.dir)
    (hf : clockFalls w.pins (w.pins.apply e) = false) :
    (w.emit p e).Listening r ∧ (w.emit p e).target = { w.target with ref := some r } := by
  obtain ⟨h1, h2, h3, h4⟩ := h
  have ht : (w.emit p e).target = { w.target with ref := some r } := by
    unfold Wire.emit Target.observe
    simp only [h1, hm, h3, seeMclr_low h2, hf]
    rfl
  refine ⟨⟨by rw [ht], h2, ?_, ?_⟩, ht⟩
  · show (w.pins.apply e).mclr.driven = _; rw [hm, h3]
  · show (w.pins.apply e).clk.dir = _; rw [hc, h4]

/-- An event without a clock edge is to the target what MCLR then is (R71). -/
theorem emit_mclr (p : Params) {w : Wire} {r : RefTarget} (h : w.target.ref = some r) (e : PinEvent)
    (hf : (w.pins.apply e).clk = w.pins.clk) :
    (w.emit p e).target.ref = some (r.seeMclr (w.pins.apply e).mclr.driven) := by
  unfold Wire.emit Target.observe
  simp only [h, clockFalls_same hf]
  rfl

/-- One bit shifted out is one bit received (R70, R110). -/
theorem shiftOutBit_target (p : Params) {w : Wire} {r : RefTarget} (b : Bool) (h : w.Listening r)
    (hd : w.pins.data.dir = .output) :
    (w.emitAll p (shiftOutBit p b)).Listening (r.clockFall p b) ∧
      (w.emitAll p (shiftOutBit p b)).pins.data.dir = .output := by
  unfold shiftOutBit
  rw [wire_emitAll_cons, wire_emitAll_cons, wire_emitAll_cons, wire_emitAll_cons, wire_emitAll_cons,
    wire_emitAll_nil]
  have g1 := (emit_quiet p h (.set .clk true) rfl rfl
    (by simp [clockFalls, Pins.apply, Pins.put, Pins.get, PinReg.driven, h.2.2.2])).1
  have g2 := (emit_quiet p g1 (.set .data b) rfl rfl (clockFalls_same rfl)).1
  have g3 := (emit_quiet p g2 (.delay p.tSetup) rfl rfl (clockFalls_same rfl)).1
  have hp : (((w.emit p (.set .clk true)).emit p (.set .data b)).emit p (.delay p.tSetup)).pins =
      { w.pins with clk := ⟨.output, true⟩, data := ⟨.output, b⟩ } := by
    simp [Pins.apply, Pins.put, Pins.get, h.2.2.2, hd]
  generalize ((w.emit p (.set .clk true)).emit p (.set .data b)).emit p (.delay p.tSetup) = v at *
  obtain ⟨k1, k2, k3, k4⟩ := g3
  have g4 : (v.emit p (.set .clk false)).Listening (r.clockFall p b) := by
    refine ⟨?_, clockFall_phase _ _ _ k2, k3, k4⟩
    unfold Wire.emit Target.observe
    simp only [k1, hp, Pins.apply, Pins.put, Pins.get, h.2.2.1, seeMclr_low k2]
    simp [clockFalls, PinReg.driven]
  refine ⟨(emit_quiet p g4 (.delay p.tHold) rfl rfl (clockFalls_same rfl)).1, ?_⟩
  rw [emit_pins, emit_pins, hp]
  rfl

/-- Bits shifted out are received in order (R57, R70). -/
theorem shiftOut_target (p : Params) (bs : List Bool) {w : Wire} {r : RefTarget} (h : w.Listening r)
    (hd : w.pins.data.dir = .output) :
    (w.emitAll p (bs.flatMap (shiftOutBit p))).Listening (bs.foldl (fun r b => r.clockFall p b) r) ∧
      (w.emitAll p (bs.flatMap (shiftOutBit p))).pins.data.dir = .output := by
  induction bs generalizing w r with
  | nil => exact ⟨h, hd⟩
  | cons b bs ih =>
    obtain ⟨g, d⟩ := shiftOutBit_target p b h hd
    rw [List.flatMap_cons, wire_emitAll_append]
    exact ih g d

/-- One bit shifted in is the bit of the frame the target drives (R73, R111). -/
theorem shiftInBit_target (p : Params) {w : Wire} {r : RefTarget} (f : Word) (pos : Nat)
    (h : w.Listening r) (hd : w.pins.data.dir = .input) (hph : r.phase = .dataIn f pos) :
    (w.shiftInBit p none).1 = f.getLsbD pos ∧
      (w.shiftInBit p none).2.Listening
        { r with phase := if pos + 1 = 16 then .command [] else .dataIn f (pos + 1) } := by
  unfold Wire.shiftInBit
  rw [wire_emitAll_cons, wire_emitAll_cons, wire_emitAll_nil]
  have g1 := (emit_quiet p h (.set .clk true) rfl rfl
    (by simp [clockFalls, Pins.apply, Pins.put, Pins.get, PinReg.driven, h.2.2.2])).1
  have g2 := (emit_quiet p g1 (.delay p.tCo) rfl rfl (clockFalls_same rfl)).1
  have hp : ((w.emit p (.set .clk true)).emit p (.delay p.tCo)).pins =
      { w.pins with clk := ⟨.output, true⟩ } := by
    simp [Pins.apply, Pins.put, Pins.get, h.2.2.2]
  generalize (w.emit p (.set .clk true)).emit p (.delay p.tCo) = v at *
  have hdd : v.pins.data.driven = none := by rw [hp]; simp [PinReg.driven, hd]
  have ha : v.target.answer = (f.getLsbD pos, v.target) := by
    unfold Target.answer; rw [g2.1]; simp only [RefTarget.answer, hph]
  have hs : v.sample p none = (f.getLsbD pos, v.emit p (.sample .data (f.getLsbD pos))) := by
    unfold Wire.sample; rw [hdd]; simp only [ha]
  dsimp only
  rw [hs]
  refine ⟨rfl, ?_⟩
  dsimp only
  rw [wire_emitAll_cons, wire_emitAll_cons, wire_emitAll_nil]
  have g3 := (emit_quiet p g2 (.sample .data (f.getLsbD pos)) rfl rfl (clockFalls_same rfl)).1
  have hp3 : (v.emit p (.sample .data (f.getLsbD pos))).pins =
      { w.pins with clk := ⟨.output, true⟩ } := hp
  generalize v.emit p (.sample .data (f.getLsbD pos)) = u at *
  obtain ⟨k1, k2, k3, k4⟩ := g3
  have g4 : (u.emit p (.set .clk false)).Listening
      { r with phase := if pos + 1 = 16 then .command [] else .dataIn f (pos + 1) } := by
    refine ⟨?_, ?_, k3, k4⟩
    · unfold Wire.emit Target.observe
      simp only [k1, hp3, Pins.apply, Pins.put, Pins.get, h.2.2.1, seeMclr_low k2]
      simp [clockFalls, PinReg.driven, hd, RefTarget.clockFall, hph, dataBits]
      split <;> rfl
    · dsimp only; split <;> simp
  exact (emit_quiet p g4 (.delay p.tHold) rfl rfl (clockFalls_same rfl)).1

/-- The first `n` bits shifted in are the first `n` of the frame the target drives (R73, R116). -/
theorem shiftIn_target (p : Params) (r : RefTarget) (f : Word) (hph : r.phase = .dataIn f 0) (w : Wire)
    (h : w.Listening r) (hd : w.pins.data.dir = .input) (n : Nat) (hn : n ≤ 16) :
    (∀ j, j < n → (Wire.shiftIn p none n w).1.getLsbD j = f.getLsbD j) ∧
      (Wire.shiftIn p none n w).2.Listening
        { r with phase := if n = 16 then .command [] else .dataIn f n } := by
  induction n with
  | zero =>
    refine ⟨fun j hj => absurd hj (Nat.not_lt_zero _), ?_⟩
    rw [if_neg (by decide), ← hph]
    exact h
  | succ n ih =>
    obtain ⟨i1, i2⟩ := ih (by omega)
    rw [if_neg (by omega)] at i2
    obtain ⟨b1, b2⟩ := shiftInBit_target p f n i2 (by rw [shiftIn_dir]; exact hd) rfl
    rw [shiftIn_succ]
    refine ⟨fun j hj => ?_, b2⟩
    dsimp only [Option.map_none]
    rw [getLsbD_setBit _ _ _ _ (by omega)]
    by_cases e : j = n
    · rw [if_pos e, b1, e]
    · rw [if_neg e]; exact i1 j (by omega)

end Sys2Proof.Machine
end

