-- ==== Sys2Proof/Laws/PerInstr.lean ====
section
/-! SUPPORT. Facts about every instruction as syntax, one lemma per constructor. -/

namespace Sys2Proof.Laws

/-- The encoder never writes a word that the decoder rejects. -/
def EncodingAccepted.Statement (i : Instr) : Prop := ∀ p : Params, ∃ j, decode p (encode p i) = .ok j

theorem EncodingAccepted.sendcmd (c : Code) (d : BitVec 32) : EncodingAccepted.Statement (.sendcmd c d) :=
  fun _ => ⟨_, rfl⟩
theorem EncodingAccepted.wrdata (w : Word) : EncodingAccepted.Statement (.wrdata w) := fun _ => ⟨_, rfl⟩
theorem EncodingAccepted.rddata : EncodingAccepted.Statement .rddata := fun _ => ⟨_, rfl⟩
theorem EncodingAccepted.enter : EncodingAccepted.Statement .enter := fun _ => ⟨_, rfl⟩
theorem EncodingAccepted.exit : EncodingAccepted.Statement .exit := fun _ => ⟨_, rfl⟩
theorem EncodingAccepted.rstaddr : EncodingAccepted.Statement .rstaddr := fun _ => ⟨_, rfl⟩
theorem EncodingAccepted.incaddr : EncodingAccepted.Statement .incaddr := fun _ => ⟨_, rfl⟩
theorem EncodingAccepted.rddevid : EncodingAccepted.Statement .rddevid := fun _ => ⟨_, rfl⟩
theorem EncodingAccepted.reservedOp (op : BitVec 4) : EncodingAccepted.Statement (.reservedOp op) :=
  fun _ => ⟨_, rfl⟩
theorem EncodingAccepted.loadConfig : EncodingAccepted.Statement .loadConfig := fun _ => ⟨_, rfl⟩
theorem EncodingAccepted.loadForProgram : EncodingAccepted.Statement .loadForProgram := fun _ => ⟨_, rfl⟩
theorem EncodingAccepted.readFromProgram : EncodingAccepted.Statement .readFromProgram :=
  fun _ => ⟨_, rfl⟩
theorem EncodingAccepted.incrementAddress : EncodingAccepted.Statement .incrementAddress :=
  fun _ => ⟨_, rfl⟩
theorem EncodingAccepted.beginTimedProgram (f : Bool) :
    EncodingAccepted.Statement (.beginTimedProgram f) := fun _ => ⟨_, rfl⟩
theorem EncodingAccepted.bulkErase : EncodingAccepted.Statement .bulkErase := fun _ => ⟨_, rfl⟩
theorem EncodingAccepted.resetAddress : EncodingAccepted.Statement .resetAddress := fun _ => ⟨_, rfl⟩
theorem EncodingAccepted.otherCommand (c : Code) (d : BitVec 32) :
    EncodingAccepted.Statement (.otherCommand c d) := fun _ => ⟨_, rfl⟩
theorem EncodingAccepted.dataOutFrame (stop : Bool) (w : Payload) :
    EncodingAccepted.Statement (.dataOutFrame stop w) := by
  intro p
  have h : (BitVec.ofBool stop ++ w ++ 0#1).getLsbD 0 = false := by
    rw [BitVec.getLsbD_append]; rfl
  exact ⟨.dataOutFrame _ _, by simp only [encode, decode, h]; rfl⟩
theorem EncodingAccepted.dataInFrame (last : Bool) (w : Payload) (first : Bool) :
    EncodingAccepted.Statement (.dataInFrame last w first) := fun _ => ⟨_, rfl⟩
theorem EncodingAccepted.keyFrame : EncodingAccepted.Statement .keyFrame :=
  fun _ => ⟨.keyFrame, by simp [encode, decode]⟩
theorem EncodingAccepted.idWord (x : BitVec 2) (i : BitVec 9) (r : BitVec 5) :
    EncodingAccepted.Statement (.idWord x i r) := fun _ => ⟨_, rfl⟩

end Sys2Proof.Laws
end

