-- ==== Sys2Proof/Certificates/Slice0/Obligations.lean ====
section
/-! DEFINITION. The statements for the provers. Each docstring names the rules of spec/ it formalises; the
statements hold for every state unless they say otherwise. -/

open Sys2Proof Sys2Proof.Machine

/-! ### Encoding -/

/-- Decoding the encoding of a well-formed instruction gives it back, with every operand at every value
its encoding admits, for every pairwise-different choice of codes and every key (R83 to R92, R95). -/
def Obligations.DecodeOfEncode : Prop :=
  ∀ (p : Params) (i : Instr), p.codes.Distinct → i.wellFormed p.codes = true →
    decode p (encode p i) = .ok i

/-- The decoder answers only well-formed instructions: a code is an "other command" only when it is none
of the seven, an operation select is reserved only from `0x8` on (R92, R95). -/
def Obligations.DecodedIsWellFormed : Prop :=
  ∀ (p : Params) (e : Encoded) (i : Instr), decode p e = .ok i → i.wellFormed p.codes = true

/-- No bit of a data-out, data-in, key or device-ID word is lost: encoding what a word decodes to gives
the word (R84, R86, R88, R89). -/
def Obligations.FrameWordsAreLossless : Prop :=
  ∀ (p : Params) (e : Encoded) (i : Instr), (∀ w, e ≠ .hostop w) → (∀ c o, e ≠ .cmd6 c o) →
    decode p e = .ok i → encode p i = e

/-- The operation-select table of R91 and the reserved codes of R92, for every `ARG` and `DLY`:
`ARG[15:6]` of SENDCMD and every field the table calls ignored do not matter. -/
def Obligations.HostRequestSelectsOperation : Prop :=
  ∀ (p : Params) (arg : Word) (dly : BitVec 32),
    decode p (.hostop (hostRequest 0 arg dly)) = .ok (.sendcmd (arg.extractLsb' 0 6) dly) ∧
    decode p (.hostop (hostRequest 1 arg dly)) = .ok (.wrdata arg) ∧
    decode p (.hostop (hostRequest 2 arg dly)) = .ok .rddata ∧
    decode p (.hostop (hostRequest 3 arg dly)) = .ok .enter ∧
    decode p (.hostop (hostRequest 4 arg dly)) = .ok .exit ∧
    decode p (.hostop (hostRequest 5 arg dly)) = .ok .rstaddr ∧
    decode p (.hostop (hostRequest 6 arg dly)) = .ok .incaddr ∧
    decode p (.hostop (hostRequest 7 arg dly)) = .ok .rddevid ∧
    ∀ op : BitVec 4, 8#4 ≤ op → decode p (.hostop (hostRequest op arg dly)) = .ok (.reservedOp op)

/-- A few words written out from the encodings decode to the instructions they stand for (V13, V14, V15,
V30 for the values; the codes and the key are the spec's defaults). -/
def Obligations.SampleWordsDecode : Prop :=
  decode Params.default (.hostop 0x0FFC400000001#52) = .ok (.sendcmd 0x04 1) ∧
  decode Params.default (.hostop 0x1123400000000#52) = .ok (.wrdata 0x1234) ∧
  decode Params.default (.hostop 0x9000000000000#52) = .ok (.reservedOp 9) ∧
  decode Params.default (.cmd6 0b010110 0) = .ok .resetAddress ∧
  decode Params.default (.dout16 0x2468) = .ok (.dataOutFrame false 0x1234) ∧
  decode Params.default (.din16 0xB300) = .ok (.dataInFrame true 0x1980 false) ∧
  decode Params.default (.key33 0x04D434850#33) = .ok .keyFrame ∧
  decode Params.default (.idword16 0x1985) = .ok (.idWord 0 0xCC 5)

/-! ### The step -/

/-- When no reset is pending and the next request decodes to an instruction, the step is that instruction
at the state with the request taken off the port, and nothing else; when a reset is pending the step is the
block's reset, whatever is requested (R230; that the reset is an input which comes first is the model's,
log entry 23). -/
def Obligations.StepRunsDecodedInstruction : Prop :=
  ∀ s : State,
    (s.resetPending = false → ∀ (e : Encoded) (es : List Encoded) (i : Instr), s.requests = e :: es →
      decode s.params e = .ok i → step s = exec i { s with requests := es }) ∧
    (s.resetPending = true → step s = .next s.blockReset)

/-- With nothing requested the block waits: the step changes nothing (R35: "the block is idle and waits
for the host's first request"; that waiting is a step, and that a pending reset comes first, are the
model's, log entries 10 and 23). -/
def Obligations.StepWithoutRequestWaits : Prop :=
  ∀ s : State, s.resetPending = false → s.requests = [] → step s = .next s

/-- Every request of the host port's format is taken and completes, in every state with no reset pending:
no operation is refused for the state it is requested in, and the block is ready for the next request (R92,
R218, R221; that a pending reset comes first is the model's, log entry 23). -/
def Obligations.EveryHostRequestCompletes : Prop :=
  ∀ (s : State) (w : BitVec 52) (es : List Encoded), s.resetPending = false →
    s.requests = .hostop w :: es →
    ∃ t, step s = .next t ∧ t.requests = es ∧ t.seq.phase = .idle ∧
      t.responses.length = s.responses.length + 1

/-! ### The instructions: result, frame, completion -/

/-- `SENDCMD` sends its command frame, holds the post-delay, updates the shadow pointer by the code, ends
Ok, answers 0, and changes nothing else (R91, R112). -/
def Obligations.SendcmdSendsCommandFrame : Prop :=
  ∀ (cmd : Code) (d : BitVec 32) (s : State), ∃ t, exec (.sendcmd cmd d) s = .next t ∧
    CommandSent cmd d.toNat s t ∧ t.responses = s.responses ++ [⟨.ok, 0⟩]

/-- `WRDATA` sends its word framed, ends Ok, answers 0, and changes nothing else; `AP`, `AP_KNOWN` and
`SESSION` among what is unchanged (R91, R114). -/
def Obligations.WrdataSendsFramedWord : Prop :=
  ∀ (word : Word) (s : State), ∃ t, exec (.wrdata word) s = .next t ∧
    DataSent word s t ∧ t.responses = s.responses ++ [⟨.ok, 0⟩]

/-- `RDDATA` samples sixteen levels, whatever they are, answers the word they assemble to shifted right
by one, ends Ok with DATA an output again, and changes nothing else (R87, R91, R116). -/
def Obligations.RddataReceivesFrame : Prop :=
  ∀ s : State, ∃ raw t, exec .rddata s = .next t ∧ DataReceived raw s t ∧
    t.data.res = raw >>> 1 ∧ t.responses = s.responses ++ [⟨.ok, raw >>> 1⟩]

/-- From an oracle with sixteen levels queued `RDDATA` reads exactly them, the first into bit 0, and takes
no others (R57, R65, R86, R116; the queue is the model's form of the oracle, log entry 12). -/
def Obligations.RddataReadsQueuedLevels : Prop :=
  ∀ s : State, s.wire.target.ref = none → 16 ≤ s.wire.target.answers.length →
    ∃ t, exec .rddata s = .next t ∧
      (∀ j, j < 16 → s.wire.target.answers[j]? = some (t.data.rxw.getLsbD j)) ∧
      t.data.res = t.data.rxw >>> 1 ∧
      t.wire.target = { s.wire.target with answers := s.wire.target.answers.drop 16 }

/-- `ENTER` pulses MCLR, shifts the key and one more pulse, ends in `ProgramMode` with the pointer
unknown, answers 0, and changes nothing else; in every state, a session already open included (R130). -/
def Obligations.EnterOpensSession : Prop :=
  ∀ s : State, ∃ t, exec .enter s = .next t ∧ Emitted (enterEvents s.params) s t ∧
    t.wire.pins = { s.wire.pins.framed with mclr := ⟨.output, false⟩ } ∧
    t = { s with
      wire := t.wire
      data := { s.data with txw := s.params.key, bitcnt := t.data.bitcnt }
      seq := { s.seq with session := .programMode, apKnown := false, phase := .idle }
      status := .ok
      responses := s.responses ++ [⟨.ok, 0⟩] }

/-- `EXIT` lowers CLK and DATA, releases MCLR, ends in `Unpowered` with the pointer unknown, answers 0, and
leaves the Resolved Device, the image and every other register; from `Unpowered` too (R134). -/
def Obligations.ExitClosesSession : Prop :=
  ∀ s : State, ∃ t, exec .exit s = .next t ∧
    Emitted [.set .clk false, .set .data false, .dir .mclr .input] s t ∧
    t.wire.pins = { s.wire.pins.framed with mclr := { s.wire.pins.mclr with dir := .input } } ∧
    t = { s with
      wire := t.wire
      seq := { s.seq with session := .unpowered, apKnown := false, phase := .idle }
      status := .ok
      responses := s.responses ++ [⟨.ok, 0⟩] }

/-- `RSTADDR` sends reset-address with `T_DLY` and ends with `AP = 0`, known, from any pointer (R136). -/
def Obligations.RstaddrSetsPointerToZero : Prop :=
  ∀ s : State, ∃ t, exec .rstaddr s = .next t ∧
    CommandSent s.params.codes.resetAddress s.params.tDly s t ∧
    t.seq.ap = 0 ∧ t.seq.apKnown = true ∧ t.responses = s.responses ++ [⟨.ok, 0⟩]

/-- `INCADDR` sends the increment command with `T_DLY`; a known pointer advances by one and stays known
but from `0x1FFF` and from `0x2007` on; an unknown one stays as it is (R138, R172; the value of `AP` where
`AP_KNOWN` ends at 0 is the model's reading, log entry 16). -/
def Obligations.IncaddrAdvancesKnownPointer : Prop :=
  ∀ s : State, s.params.codes.Distinct → ∃ t, exec .incaddr s = .next t ∧
    CommandSent s.params.codes.incrementAddress s.params.tDly s t ∧
    t.responses = s.responses ++ [⟨.ok, 0⟩] ∧
    (s.seq.apKnown = true → t.seq.ap = s.seq.ap + 1 ∧
      (t.seq.apKnown = true ↔ s.seq.ap ≠ 0x1FFF#16 ∧ s.seq.ap < 0x2007#16)) ∧
    (s.seq.apKnown = false → t.seq.ap = s.seq.ap ∧ t.seq.apKnown = false)

/-- `RDDEVID` sends its frames, whatever it samples; the word it reads goes to `RES` and to the lookup,
which writes the Resolved Device as R154 or R155 says; the raw word is the answer either way; nothing
else changes but the wire, the data path and the pointer, which ends at `0x2000 + ID_INCREMENTS`, known
(R140; R152 to R155; R172; the oracle's queue is the model's form of R65, log entry 12). -/
def Obligations.RddevidReadsAndResolves : Prop :=
  ∀ s : State, ∃ raw t, exec .rddevid s = .next t ∧
    t.wire.trace = s.wire.trace ++ deviceIdEvents s.params raw ∧
    t.wire.pins = { s.wire.pins.framed with data := ⟨.output, false⟩ } ∧
    (s.wire.target.ref = none → 16 ≤ s.wire.target.answers.length →
      raw = queuedFrameAt s.wire.target.answers 0) ∧
    t = { s with
      wire := t.wire
      data := {
        txw := s.params.codes.readFromProgram.setWidth 32, rxw := raw, bitcnt := t.data.bitcnt,
        res := raw >>> 1 }
      seq := t.seq
      dev := t.dev
      status := t.status
      imgAlloc := t.imgAlloc
      image := t.image
      responses := s.responses ++ [⟨t.status, raw >>> 1⟩] } ∧
    t.seq.session = s.seq.session ∧ t.seq.phase = .idle ∧
    (s.params.codes.Distinct → s.params.idIncrements ≤ 7 →
      t.seq.ap = 0x2000#16 + BitVec.ofNat 16 s.params.idIncrements ∧ t.seq.apKnown = true) ∧
    (∀ r, lookup s.params.table ((raw >>> 1).extractLsb' 5 9) = some r →
      t.dev = ⟨true, r.name, r.codeMemorySize, (raw >>> 1).extractLsb' 0 5, r.deviceId⟩ ∧
        t.imgAlloc = true ∧ t.image = [] ∧ t.status = .ok) ∧
    (lookup s.params.table ((raw >>> 1).extractLsb' 5 9) = none →
      t.dev = ⟨false, "", 0, 0, (raw >>> 1).extractLsb' 5 9⟩ ∧
        t.imgAlloc = s.imgAlloc ∧ t.image = s.image ∧ t.status = .deviceNotRecognized)

/-- A request with a reserved operation select makes no pin event and changes no state but `STATUS`, which
becomes `IllegalOp`; it is answered with 0 (R92, R214; the step with no reset pending, log entry 23). -/
def Obligations.ReservedRequestIsIllegal : Prop :=
  ∀ s : State, s.seq.phase = .idle →
    (∀ op : BitVec 4, exec (.reservedOp op) s =
      .next { s with status := .illegalOp, responses := s.responses ++ [⟨.illegalOp, 0⟩] }) ∧
    ∀ (w : BitVec 52) (es : List Encoded), s.resetPending = false → s.requests = .hostop w :: es →
      8#4 ≤ hostOp w → step s = .next { s with
        requests := es, status := .illegalOp, responses := s.responses ++ [⟨.illegalOp, 0⟩] }

/-- Each of the seven ICSP commands is one command frame with its own code and the post-delay R166 gives
it; nothing changes but what a command frame changes (R165, R166), and no response is made (the model's
choice, log entry 5). -/
def Obligations.NamedCommandsSendTheirFrame : Prop :=
  ∀ (s : State) (i : Instr) (cmd : Code) (d : Nat),
    (i, cmd, d) ∈ [
      (Instr.loadConfig, s.params.codes.loadConfig, s.params.tDly),
      (Instr.loadForProgram, s.params.codes.loadForProgram, s.params.tDly),
      (Instr.readFromProgram, s.params.codes.readFromProgram, s.params.tDly),
      (Instr.incrementAddress, s.params.codes.incrementAddress, s.params.tDly),
      (Instr.beginTimedProgram false, s.params.codes.beginTimedProgram, s.params.tProg),
      (Instr.beginTimedProgram true, s.params.codes.beginTimedProgram, s.params.tProgCfg),
      (Instr.bulkErase, s.params.codes.bulkErase, s.params.tErase),
      (Instr.resetAddress, s.params.codes.resetAddress, s.params.tDly)] →
    ∃ t, exec i s = .next t ∧ CommandSent cmd d s t ∧ t.responses = s.responses

/-- A code that is none of the seven is shifted like any command with the post-delay given, and the
pointer is no longer vouched for (R176); `AP` stays as it was (the model's reading, log entry 16) and no
response is made (the model's choice, log entry 5). -/
def Obligations.OtherCommandForgetsPointer : Prop :=
  ∀ (s : State) (cmd : Code) (d : BitVec 32), cmd ∉ s.params.codes.toList →
    ∃ t, exec (.otherCommand cmd d) s = .next t ∧ CommandSent cmd d.toNat s t ∧
      t.seq.ap = s.seq.ap ∧ t.seq.apKnown = false ∧ t.responses = s.responses

/-- A data-out frame is sent as the word whose framing it is: stop slot, payload, start bit 0 (R84, R85,
R114); no response is made (the model's choice, log entry 5). -/
def Obligations.DataOutFrameIsSentAsItsWord : Prop :=
  ∀ (stop : Bool) (payload : Payload) (s : State), ∃ word t,
    frameWord word = BitVec.ofBool stop ++ payload ++ 0#1 ∧
    exec (.dataOutFrame stop payload) s = .next t ∧ DataSent word s t ∧ t.responses = s.responses

/-- A data-in frame is received slot by slot: last slot in bit 15, payload in bits 14:1, first slot in bit
0 of `RXW`; in `RES` bit 15 is 0, the last slot is in bit 14, the payload in bits 13:0, and the first slot
is discarded (R86, R87). That the frame runs as a data-in frame of its own, whose levels are the word's and
not the oracle's, with no response, is the model's choice, log entry 5. -/
def Obligations.DataInFrameIsUnframed : Prop :=
  ∀ (last : Bool) (payload : Payload) (first : Bool) (s : State), ∃ t,
    exec (.dataInFrame last payload first) s = .next t ∧
    DataReceived (BitVec.ofBool last ++ payload ++ BitVec.ofBool first) s t ∧
    t.data.res = 0#1 ++ BitVec.ofBool last ++ payload ∧ t.responses = s.responses ∧
    (s.wire.target.ref = none → t.wire.target = s.wire.target)

/-- The key frame is the 33 pulses alone: nothing changes but the wire, `TXW`, `BITCNT` and `STATUS`
(R88; that the frame by itself leaves `SESSION` and `AP_KNOWN` is the model's reading, log entry 5). -/
def Obligations.KeyFrameIsThePulsesAlone : Prop :=
  ∀ s : State, ∃ t, exec .keyFrame s = .next t ∧ Emitted (keyEvents s.params) s t ∧
    t.wire.pins = s.wire.pins.framed ∧
    t = { s with
      wire := t.wire
      data := { s.data with txw := s.params.key, bitcnt := t.data.bitcnt }
      seq := { s.seq with phase := .idle }
      status := .ok }

/-- A device-ID word whose ID a row has first: the Resolved Device is that row with the word's revision, a
fresh image is allocated, `STATUS` is Ok (R152, R154). That the word runs alone, with no pin event, `RES`
unwritten and no response, is the model's choice, log entry 5. -/
def Obligations.IdWordMatchPopulatesDevice : Prop :=
  ∀ (x : BitVec 2) (id : BitVec 9) (rev : BitVec 5) (s : State) (r : Row),
    lookup s.params.table id = some r →
    exec (.idWord x id rev) s = .next { s with
      dev := ⟨true, r.name, r.codeMemorySize, rev, id⟩
      imgAlloc := true
      image := []
      seq := { s.seq with phase := .idle }
      status := .ok }

/-- A device-ID word whose ID no row has: the Resolved Device is cleared but for the ID, no allocation is
made or undone, `STATUS` is `DeviceNotRecognized` (R152, R155, R210). That the word runs alone, with no pin
event, `RES` unwritten and no response, is the model's choice, log entry 5. -/
def Obligations.IdWordNoMatchIsRaised : Prop :=
  ∀ (x : BitVec 2) (id : BitVec 9) (rev : BitVec 5) (s : State),
    lookup s.params.table id = none →
    exec (.idWord x id rev) s = .next { s with
      dev := ⟨false, "", 0, 0, id⟩
      seq := { s.seq with phase := .idle }
      status := .deviceNotRecognized }

/-! ### Lookup and arithmetic -/

/-- The lookup answers the first row with the ID, and none exactly when no row has it (R153). -/
def Obligations.LookupFindsFirstMatch : Prop :=
  ∀ (table : List Row) (id : BitVec 9),
    (∀ r : Row, lookup table id = some r ↔
      ∃ j : Nat, table[j]? = some r ∧ r.deviceId = id ∧
        ∀ k, k < j → ∀ q : Row, table[k]? = some q → q.deviceId ≠ id) ∧
    (lookup table id = none ↔ ∀ r ∈ table, r.deviceId ≠ id)

/-- The source's property of R156: every row that is the first with its ID is resolved by every ID word
with that ID, with the word's revision, and a fresh image is allocated, nothing filled; a word with no
row's ID is not recognized. -/
def Obligations.EveryFirstRowIsResolved : Prop :=
  ∀ (s : State) (w : Word),
    (∀ (j : Nat) (r : Row), s.params.table[j]? = some r →
      (∀ k, k < j → ∀ q : Row, s.params.table[k]? = some q → q.deviceId ≠ r.deviceId) →
      w.extractLsb' 5 9 = r.deviceId →
      (resolve w s).dev.valid = true ∧ (resolve w s).dev.name = r.name ∧
        (resolve w s).dev.size = r.codeMemorySize ∧ (resolve w s).dev.rev = w.extractLsb' 0 5 ∧
        (resolve w s).imgAlloc = true ∧ (resolve w s).image = []) ∧
    ((∀ r ∈ s.params.table, w.extractLsb' 5 9 ≠ r.deviceId) →
      (resolve w s).dev.valid = false ∧ (resolve w s).status = .deviceNotRecognized)

/-- Decode of the ID word: nine bits from bit 5, five bits from bit 0; bits 15:14 enter neither, so a mask
to fourteen bits makes no difference (R152). -/
def Obligations.IdWordFields : Prop :=
  ∀ w : Word, deviceIdOf w = w.extractLsb' 5 9 ∧ deviceRevOf w = w.extractLsb' 0 5 ∧
    deviceIdOf (w &&& 0x3FFF#16) = deviceIdOf w ∧ deviceRevOf (w &&& 0x3FFF#16) = deviceRevOf w

/-- The framing laws of R117: unframing undoes framing but for bit 15, on a 14-bit word it is the
identity, and masking an unframed word leaves bits 14:1 of the raw one. -/
def Obligations.UnframingUndoesFraming : Prop :=
  (∀ w : Word, unframeWord (frameWord w) = w &&& 0x7FFF#16) ∧
  (∀ w : Word, w ≤ 0x3FFF#16 → unframeWord (frameWord w) = w) ∧
  (∀ r : Word, unframeWord r &&& 0x3FFF#16 = (r.extractLsb' 1 14).setWidth 16)

/-- Data-out framing: bit 0 is 0, bit 15 of the word is lost, bit 14 lands in bit 15 (R85). -/
def Obligations.FramingShiftsLeftByOne : Prop :=
  ∀ w : Word, (frameWord w).toNat = (w.toNat * 2) % 2 ^ 16 ∧
    (frameWord w).getLsbD 0 = false ∧ (frameWord w).getLsbD 15 = w.getLsbD 14 ∧
    (frameWord w).extractLsb' 1 14 = w.extractLsb' 0 14

/-! ### The shadow pointer -/

/-- What a command does to the shadow pointer depends on its code alone, in every state and whichever
instruction sends it: the column of R166, with R172's two bounds (R167, R168, R170 to R176; inside `RDDEVID`
it is RddevidReadsAndResolves). The value of `AP` where `AP_KNOWN` ends at 0 is the model's reading, log
entry 16; that the rows that are no host operation run as instructions is log entry 5. -/
def Obligations.ShadowPointerFollowsCode : Prop :=
  ∀ (s : State) (i : Instr) (cmd : Code), s.params.codes.Distinct →
    ((∃ d, i = .sendcmd cmd d) ∨ (∃ d, i = .otherCommand cmd d) ∨ (i, cmd) ∈ [
      (.rstaddr, s.params.codes.resetAddress),
      (.incaddr, s.params.codes.incrementAddress),
      (.loadConfig, s.params.codes.loadConfig),
      (.loadForProgram, s.params.codes.loadForProgram),
      (.readFromProgram, s.params.codes.readFromProgram),
      (.incrementAddress, s.params.codes.incrementAddress),
      (.beginTimedProgram false, s.params.codes.beginTimedProgram),
      (.beginTimedProgram true, s.params.codes.beginTimedProgram),
      (.bulkErase, s.params.codes.bulkErase),
      (.resetAddress, s.params.codes.resetAddress)]) →
    ∃ t, exec i s = .next t ∧
      (cmd = s.params.codes.resetAddress → t.seq.ap = 0 ∧ t.seq.apKnown = true) ∧
      (cmd = s.params.codes.loadConfig → t.seq.ap = 0x2000#16 ∧ t.seq.apKnown = true) ∧
      (cmd = s.params.codes.incrementAddress →
        (s.seq.apKnown = true → s.seq.ap ≠ 0x1FFF#16 → s.seq.ap < 0x2007#16 →
          t.seq.ap = s.seq.ap + 1 ∧ t.seq.apKnown = true) ∧
        (s.seq.apKnown = true → s.seq.ap = 0x1FFF#16 ∨ 0x2007#16 ≤ s.seq.ap →
          t.seq.ap = s.seq.ap + 1 ∧ t.seq.apKnown = false) ∧
        (s.seq.apKnown = false → t.seq.ap = s.seq.ap ∧ t.seq.apKnown = false)) ∧
      (cmd ∈ [s.params.codes.loadForProgram, s.params.codes.readFromProgram,
          s.params.codes.beginTimedProgram, s.params.codes.bulkErase] →
        t.seq.ap = s.seq.ap ∧ t.seq.apKnown = s.seq.apKnown) ∧
      (cmd ∉ s.params.codes.toList → t.seq.ap = s.seq.ap ∧ t.seq.apKnown = false)

/-! ### What a receiver reads off the wire -/

/-- A command frame as a receiver reads it: `cmd[0]` to `cmd[5]` at the six falling clock edges, no start
bit, stop bit or parity, DATA at 0 after it; 32 events, which are, bit by bit and in this order, those
of R110, then DATA at 0 and the post-delay (R82, R110, R112). Where the two delays stand is the spec's own
decision D3 (log entry 20). -/
def Obligations.CommandFrameOnTheWire : Prop :=
  ∀ (ps : Pins) (p : Params) (cmd : Code) (d : Nat),
    dataAtFalls ps (commandEvents p cmd d) = (List.range 6).map (fun i => cmd.getLsbD i) ∧
    (ps.after (commandEvents p cmd d)).data.lvl = false ∧
    (commandEvents p cmd d).length = 32 ∧
    commandEvents p cmd d = (List.range 6).flatMap (fun i =>
      [.set .clk true, .set .data (cmd.getLsbD i), .delay p.tSetup, .set .clk false, .delay p.tHold]) ++
        [.set .data false, .delay d] ∧
    (ps.clk.lvl = false → clockRises ps (commandEvents p cmd d) = 6)

/-- A data-out frame as a receiver reads it: a 0, then `word[0]` to `word[14]`; `word[15]` never reaches
the wire; DATA at 0 after it; 81 events, which are, bit by bit and in this order, those of R110, then DATA
at 0 and no delay (R84, R85, R110, R114). The waveform of a bit and that no delay trails are the spec's own
decisions D3 and D4 (log entry 20). -/
def Obligations.DataOutFrameOnTheWire : Prop :=
  ∀ (ps : Pins) (p : Params) (word : Word),
    dataAtFalls ps (dataOutEvents p word) = false :: (List.range 15).map (fun i => word.getLsbD i) ∧
    (ps.after (dataOutEvents p word)).data.lvl = false ∧
    (dataOutEvents p word).length = 81 ∧
    dataOutEvents p word = (false :: (List.range 15).map (fun i => word.getLsbD i)).flatMap (fun b =>
      [.set .clk true, .set .data b, .delay p.tSetup, .set .clk false, .delay p.tHold]) ++
        [.set .data false]

/-- `ENTER` as a receiver reads it: the 32 bits of the key, least significant first, then a 0; 33 falling
clock edges, 170 events, which are MCLR's five and then, bit by bit and in this order, those of R110 for the
33 pulses of the key frame (R88, R110, R130). The waveform, MCLR's events and the 0 are the spec's own
decisions D3 and D6 (log entry 20). -/
def Obligations.KeyOnTheWire : Prop :=
  ∀ (ps : Pins) (p : Params),
    dataAtFalls ps (enterEvents p) = (List.range 32).map (fun i => p.key.getLsbD i) ++ [false] ∧
    (enterEvents p).length = 170 ∧
    enterEvents p = [.dir .mclr .output, .set .mclr true, .delay p.tEntHigh, .set .mclr false,
      .delay p.tEntLow] ++ keyEvents p ∧
    keyEvents p = ((List.range 32).map (fun i => p.key.getLsbD i) ++ [false]).flatMap (fun b =>
      [.set .clk true, .set .data b, .delay p.tSetup, .set .clk false, .delay p.tHold])

/-- A data-in frame: sixteen samples, the first in bit 0 of `raw`, each taken while the block does not
drive DATA, which is an output again after it at the level latched before; 82 events, which are, sample by
sample and in this order, those of R111 between the two turns of DATA (R86, R111, R116, R249). The events
after a sample and the level after the turn are the spec's own decision D5 (log entry 20). -/
def Obligations.DataInFrameOnTheWire : Prop :=
  ∀ (ps : Pins) (p : Params) (raw : Word),
    sampledLevels (dataInEvents p raw) = (List.range 16).map (fun i => raw.getLsbD i) ∧
    samplesReleased ps (dataInEvents p raw) = true ∧
    (ps.after (dataInEvents p raw)).data = { ps.data with dir := .output } ∧
    (dataInEvents p raw).length = 82 ∧
    dataInEvents p raw = [.dir .data .input] ++ (List.range 16).flatMap (fun i =>
      [.set .clk true, .delay p.tCo, .sample .data (raw.getLsbD i), .set .clk false, .delay p.tHold]) ++
        [.dir .data .output]

/-- `RDDEVID` makes `32 + 81 + 32 × ID_INCREMENTS + 32 + 82` events, sixteen of them samples (R140). -/
def Obligations.RddevidEventCount : Prop :=
  ∀ (p : Params) (raw : Word),
    (deviceIdEvents p raw).length = 32 + 81 + 32 * p.idIncrements + 32 + 82 ∧
    (sampledLevels (deviceIdEvents p raw)).length = 16

/-- The lower bounds of R252 on the duration of each operation, as the sums of its delays. -/
def Obligations.OperationDurations : Prop :=
  ∀ p : Params,
    (∀ cmd d, duration (commandEvents p cmd d) = 6 * (p.tSetup + p.tHold) + d) ∧
    (∀ word, duration (dataOutEvents p word) = 16 * (p.tSetup + p.tHold)) ∧
    (∀ raw, duration (dataInEvents p raw) = 16 * (p.tCo + p.tHold)) ∧
    duration (enterEvents p) = p.tEntHigh + p.tEntLow + 33 * (p.tSetup + p.tHold) ∧
    duration exitEvents = 0

/-- Dropping the `PinSet`s that change no level leaves what an observer can tell: the same pin registers at
the end, the same bits at the falling edges, the same samples, and every delay (R113). -/
def Obligations.RedundantSetsAreUnobservable : Prop :=
  ∀ (ps : Pins) (es : List PinEvent),
    ps.after (observable ps es) = ps.after es ∧
    dataAtFalls ps (observable ps es) = dataAtFalls ps es ∧
    sampledLevels (observable ps es) = sampledLevels es ∧
    duration (observable ps es) = duration es

/-! ### Rules over all instructions -/

/-- Parameters "are fixed before the first operation and never change", by the block's reset neither, and
no operation writes the host's flags, which only the reset does (R30, R33, R35, R238; the reset as an input,
log entry 23). -/
def Obligations.ParametersNeverChange : Prop :=
  ∀ s t : State, step s = .next t →
    t.params = s.params ∧ (s.resetPending = false → t.flags = s.flags)

/-- Every operation only adds events to the trace, and the pin registers are what those events made of
them (R10, R21, R60). -/
def Obligations.TraceOnlyGrows : Prop :=
  ∀ (i : Instr) (s t : State), exec i s = .next t →
    ∃ es, t.wire.trace = s.wire.trace ++ es ∧ t.wire.pins = s.wire.pins.after es

/-- "No event depends on a sampled bit": an operation's events are fixed by the parameters and its
operands, whatever the state it is requested in and whatever is sampled, but for the sampled values
themselves (R27, R144). -/
def Obligations.EventsDoNotDependOnState : Prop :=
  ∀ (i : Instr) (s s' t t' : State), s'.params = s.params → exec i s = .next t → exec i s' = .next t' →
    ∃ es es', t.wire.trace = s.wire.trace ++ es ∧ t'.wire.trace = s'.wire.trace ++ es' ∧
      es.map PinEvent.withoutValue = es'.map PinEvent.withoutValue

/-- No operation tests `SESSION`, `AP_KNOWN`, `RD_VALID` or `IMG_ALLOC`: with any values of these the wire,
the data path and the outcome are the same (R144, R218, R220). -/
def Obligations.NoOperationTestsTheSession : Prop :=
  ∀ (i : Instr) (s t t' : State) (q : Sequencer) (d : ResolvedDevice) (o : Status) (a : Bool),
    exec i s = .next t →
    exec i { s with seq := q, dev := d, status := o, imgAlloc := a } = .next t' →
    t'.wire = t.wire ∧ t'.data = t.data ∧ t'.status = t.status

/-- The session phases "are entered and left by `ENTER` and `EXIT` only", and no other operation touches
MCLR (R24, R119, R220). -/
def Obligations.OnlyEnterAndExitMoveTheSession : Prop :=
  ∀ (i : Instr) (s t : State), exec i s = .next t → i ≠ .enter → i ≠ .exit →
    t.seq.session = s.seq.session ∧ t.wire.pins.mclr = s.wire.pins.mclr

/-- Of the host operations "only `RDDATA` and `RDDEVID` write" `RES`, of the frames the data-in frame; the
Resolved Device and `IMG_ALLOC` are written only by `RDDEVID`, and by the ID word that stands for its last
part (R22, R28, R31, R91, R119). -/
def Obligations.ResultAndDeviceHaveTheirWriters : Prop :=
  ∀ (i : Instr) (s t : State), exec i s = .next t →
    (i ≠ .rddata → i ≠ .rddevid → (∀ l w f, i ≠ .dataInFrame l w f) → t.data.res = s.data.res) ∧
    (i ≠ .rddevid → (∀ x d r, i ≠ .idWord x d r) →
      t.dev = s.dev ∧ t.imgAlloc = s.imgAlloc ∧ t.image = s.image)

/-- Every host operation is answered once, with the `STATUS` it ended with and with `RES` for the two
reads, 0 for the others (R91). -/
def Obligations.HostOperationsAreAnswered : Prop :=
  ∀ (i : Instr) (s t : State), exec i s = .next t →
    ((i = .rddata ∨ i = .rddevid) → t.responses = s.responses ++ [⟨t.status, t.data.res⟩]) ∧
    (((∃ c d, i = .sendcmd c d) ∨ (∃ w, i = .wrdata w) ∨ i = .enter ∨ i = .exit ∨ i = .rstaddr ∨
        i = .incaddr ∨ ∃ op, i = .reservedOp op) →
      t.responses = s.responses ++ [⟨t.status, 0⟩])

/-- `STATUS` is not sticky and has one cause each: the outcome is `IllegalOp` exactly for a reserved
request, `DeviceNotRecognized` only for a lookup, `Ok` otherwise, whatever it was before (R29, R215,
R217). -/
def Obligations.StatusHasOneCause : Prop :=
  ∀ (i : Instr) (s t : State), exec i s = .next t →
    (t.status = .illegalOp ↔ ∃ op, i = .reservedOp op) ∧
    (t.status = .deviceNotRecognized → i = .rddevid ∨ ∃ x d r, i = .idWord x d r) ∧
    (t.status = .ok ∨ t.status = .illegalOp ∨ t.status = .deviceNotRecognized)

/-- `BITCNT` ends at the index of the last bit shifted, whatever instruction shifts: 5 after a command
frame, 15 after a data-out or data-in frame (`RDDEVID` ends with one), 32 after the key frame's additional
pulse; an instruction that shifts nothing leaves it. The model's reading of R22, log entry 9. -/
def Obligations.BitCounterEndsAtLastIndex : Prop :=
  ∀ s : State,
    (∀ (c : Code) (d : BitVec 32) (fuseWord : Bool), ∀ i ∈ ([
        .sendcmd c d, .rstaddr, .incaddr, .loadConfig, .loadForProgram, .readFromProgram, .incrementAddress,
        .beginTimedProgram fuseWord, .bulkErase, .resetAddress, .otherCommand c d] : List Instr),
      ∃ t, exec i s = .next t ∧ t.data.bitcnt = 5) ∧
    (∀ (word : Word) (last first : Bool) (payload : Payload), ∀ i ∈ ([
        .wrdata word, .rddata, .rddevid, .dataOutFrame last payload, .dataInFrame last payload first] : List Instr),
      ∃ t, exec i s = .next t ∧ t.data.bitcnt = 15) ∧
    (∀ i ∈ ([.enter, .keyFrame] : List Instr), ∃ t, exec i s = .next t ∧ t.data.bitcnt = 32) ∧
    (∀ (op : BitVec 4) (x : BitVec 2) (id : BitVec 9) (rev : BitVec 5), ∀ i ∈ ([
        .exit, .reservedOp op, .idWord x id rev] : List Instr),
      ∃ t, exec i s = .next t ∧ t.data.bitcnt = s.data.bitcnt)

/-! ### Reset and the invariant -/

/-- Reset, the first one and every later one, leaves the values R35 gives, an empty trace and an idle block
(R35, R230). -/
def Obligations.ResetLeavesTheStatedValues : Prop :=
  ∀ t : State, (t = State.reset ∨ ∃ s, t = State.blockReset s) →
    t.seq.session = .unpowered ∧
    t.wire.pins.mclr.dir = .input ∧ t.wire.pins.clk.dir = .output ∧ t.wire.pins.data.dir = .output ∧
    t.wire.pins.mclr.lvl = false ∧ t.wire.pins.clk.lvl = false ∧ t.wire.pins.data.lvl = false ∧
    t.seq.apKnown = false ∧
    t.dev = ⟨false, "", 0, 0, 0⟩ ∧
    t.imgAlloc = false ∧ t.status = .ok ∧ t.seq.phase = .idle ∧
    t.flags = ⟨false, false, false⟩ ∧ t.wire.trace = []

/-- The machine after reset satisfies the invariant. -/
def Obligations.ResetSatisfiesInvariant : Prop := Inv State.reset

/-- Every step keeps the invariant of the machine between operations: well-formed parameters, CLK and DATA
outputs at 0, MCLR driven in a session and released without one, `SESSION` 0 or 2, the block idle, a known
pointer in the vouched ranges, no host code in `STATUS`, the Resolved Device consistent, the image and the
reference target's memory canonical, `RES[15] = 0` (R24, R27 to R29, R87, R172, R238; of `RES` after the
block's reset, log entries 8 and 23). -/
def Obligations.StepKeepsInvariant : Prop :=
  ∀ s t : State, Inv s → step s = .next t → Inv t

/-- After `EXIT` from a state of the invariant the pin registers are those of reset (R134, R232). -/
def Obligations.ExitRestoresResetPins : Prop :=
  ∀ s : State, Inv s → ∃ t, exec .exit s = .next t ∧ t.wire.pins = Pins.reset

/-! ### Host sequences -/

/-- `bulkErase` sends reset-address, then bulk-erase held for `T_ERASE`: 64 events; the pointer ends at 0,
known; the image and the Resolved Device are untouched (R190). -/
def Obligations.BulkEraseSequence : Prop :=
  ∀ s : State, s.params.codes.Distinct →
    (bulkErase s).wire.trace = s.wire.trace ++
      (commandEvents s.params s.params.codes.resetAddress s.params.tDly ++
        commandEvents s.params s.params.codes.bulkErase s.params.tErase) ∧
    (bulkErase s).seq.ap = 0 ∧ (bulkErase s).seq.apKnown = true ∧
    (bulkErase s).image = s.image ∧ (bulkErase s).dev = s.dev

/-- `dumpConfigurationRegisters` positions to the fuse word, reads it and reports the masked value: its
frames in order, 451 events, the pointer at `0x2007`, known, the image and the Resolved Device untouched
(R177, R202; the oracle's queue is the model's form of R65, log entry 12). -/
def Obligations.DumpReportsFuseWord : Prop :=
  ∀ s : State, s.params.codes.Distinct → ∃ raw,
    (dumpConfigurationRegisters s).1 = .reported (unframeWord raw &&& 0x3FFF#16) ∧
    (s.wire.target.ref = none → 16 ≤ s.wire.target.answers.length →
      raw = queuedFrameAt s.wire.target.answers 0) ∧
    (dumpConfigurationRegisters s).2.wire.trace = s.wire.trace ++
      (commandEvents s.params s.params.codes.loadConfig s.params.tDly ++ dataOutEvents s.params 0 ++
        incrementEvents s.params 7 ++
        commandEvents s.params s.params.codes.readFromProgram s.params.tDly ++
        dataInEvents s.params raw) ∧
    (dumpConfigurationRegisters s).2.wire.trace.length = s.wire.trace.length + 451 ∧
    (dumpConfigurationRegisters s).2.seq.ap = 0x2007#16 ∧
    (dumpConfigurationRegisters s).2.seq.apKnown = true ∧
    (dumpConfigurationRegisters s).2.image = s.image ∧ (dumpConfigurationRegisters s).2.dev = s.dev

/-- `blankCheck` against any answers: it succeeds when every word read is blank, and otherwise fails at the
first that is not, reporting twice its index and its masked value, and looks no further (R58, R186 to
R188, R207a; the answers as a queue are the model's form of the oracle, log entry 12). -/
def Obligations.BlankCheckFindsFirstProgrammedWord : Prop :=
  ∀ s : State, s.wire.target.ref = none →
    16 * s.dev.size.toNat ≤ s.wire.target.answers.length →
    ((∀ j, j < s.dev.size.toNat →
        unframeWord (queuedFrameAt s.wire.target.answers j) &&& 0x3FFF#16 = 0x3FFF#16) →
      (blankCheck s).1 = .success) ∧
    ∀ a, a < s.dev.size.toNat →
      (∀ j, j < a → unframeWord (queuedFrameAt s.wire.target.answers j) &&& 0x3FFF#16 = 0x3FFF#16) →
      unframeWord (queuedFrameAt s.wire.target.answers a) &&& 0x3FFF#16 ≠ 0x3FFF#16 →
      (blankCheck s).1 =
          .notBlank (2 * a) (unframeWord (queuedFrameAt s.wire.target.answers a) &&& 0x3FFF#16) ∧
        (blankCheck s).2.wire.target.answers = s.wire.target.answers.drop (16 * (a + 1))

/-- A programmed row: fifteen times load, data, increment, then load, data, one programming pulse of
`T_PROG`, increment, each word the image's or `0x3FFF` where it has none (R196, R244). -/
def Obligations.ProgrammedRowFrames : Prop :=
  ∀ (r : Nat) (s : State),
    (writeRow r s).wire.trace = s.wire.trace ++
      ((List.range 15).flatMap (fun j =>
        commandEvents s.params s.params.codes.loadForProgram s.params.tDly ++
        dataOutEvents s.params ((Sparse.find s.image (16 * r + j)).getD 0x3FFF#16) ++
        commandEvents s.params s.params.codes.incrementAddress s.params.tDly) ++
      (commandEvents s.params s.params.codes.loadForProgram s.params.tDly ++
        dataOutEvents s.params ((Sparse.find s.image (16 * r + 15)).getD 0x3FFF#16) ++
        commandEvents s.params s.params.codes.beginTimedProgram s.params.tProg ++
        commandEvents s.params s.params.codes.incrementAddress s.params.tDly)) ∧
    (writeRow r s).image = s.image

/-! ### The reference target, informative -/

/-- The reference target decodes the six bits of a command frame it is waiting for, whatever the command:
reset-address zeroes its pointer, increment advances it, bulk-erase blanks its code words and the fuse word
and unloads its latches, the two loads wait for their data frame, and only begin-timed-program and
bulk-erase touch its memory (R70, R72 to R76; that any other code changes nothing is the model's choice, log
entry 14). -/
def Obligations.TargetReceivesCommand : Prop :=
  ∀ (s : State) (r : RefTarget) (cmd : Code) (d : BitVec 32), s.params.codes.Distinct →
    s.wire.target.ref = some r → r.phase = .command [] →
    s.wire.pins = ⟨⟨.output, false⟩, ⟨.output, false⟩, ⟨.output, false⟩⟩ →
    ∃ t r', exec (.sendcmd cmd d) s = .next t ∧ t.wire.target.ref = some r' ∧
      (cmd = s.params.codes.resetAddress → r' = { r with pc := 0 }) ∧
      (cmd = s.params.codes.incrementAddress → r' = { r with pc := r.pc + 1 }) ∧
      (cmd = s.params.codes.loadConfig → r' = { r with phase := .dataOut true [] }) ∧
      (cmd = s.params.codes.loadForProgram → r' = { r with phase := .dataOut false [] }) ∧
      (cmd = s.params.codes.bulkErase → r'.pc = r.pc ∧ r'.loaded = 0 ∧
        ∀ a, r'.mem.read a = if a < 0x2000 ∨ a = 0x2007 then 0x3FFF#14 else r.mem.read a) ∧
      (cmd ∉ s.params.codes.toList → r' = r) ∧
      (cmd ≠ s.params.codes.beginTimedProgram → cmd ≠ s.params.codes.bulkErase → r'.mem = r.mem)

/-- `ENTER` brings the reference target into programming mode with its pointer at 0 and no latch loaded,
from any position in its frames, and `EXIT` takes it out; neither touches its memory (R71). The block's
reset does not reset it: pointer, mode, memory and all else of it are "whatever they were" (R231; the reset
as an input, log entry 23). -/
def Obligations.TargetFollowsEntryAndExit : Prop :=
  ∀ (s : State) (r : RefTarget), s.wire.target.ref = some r →
    (s.wire.pins.clk.dir = .output → s.wire.pins.data.dir = .output →
      ∃ t r', exec .enter s = .next t ∧ t.wire.target.ref = some r' ∧
        r'.mode = true ∧ r'.phase = .command [] ∧ r'.pc = 0 ∧ r'.loaded = 0 ∧ r'.mem = r.mem) ∧
    (s.wire.pins.clk.lvl = false →
      ∃ t r', exec .exit s = .next t ∧ t.wire.target.ref = some r' ∧
        r'.mode = false ∧ r'.mem = r.mem) ∧
    (s.resetPending = true →
      ∃ t, step s = .next t ∧ t.wire.target.ref = some r ∧ t.wire.target = s.wire.target)

/-- A word read from the reference target by read-from-program and `RDDATA` is the word its pointer
selects, in the low fourteen bits, and neither its pointer nor its memory changes (R53, R62, R73). -/
def Obligations.TargetAnswersRead : Prop :=
  ∀ (s t u : State) (r : RefTarget) (d : BitVec 32), s.params.codes.Distinct →
    s.wire.target.ref = some r → r.phase = .command [] →
    s.wire.pins = ⟨⟨.output, false⟩, ⟨.output, false⟩, ⟨.output, false⟩⟩ →
    exec (.sendcmd s.params.codes.readFromProgram d) s = .next t → exec .rddata t = .next u →
    u.data.res = 0#2 ++ r.mem.read r.pc.toNat ∧ u.wire.target.ref = some r

/-- The reference target takes the data frame it waits for: after load-config its pointer becomes `0x2000`
and nothing else changes; after load-for-program the low fourteen bits of the word go to the latch of the
pointer's row offset, which counts as loaded, and nothing else changes (R72, R74, R85). -/
def Obligations.TargetTakesDataFrame : Prop :=
  ∀ (s : State) (r : RefTarget) (config : Bool) (word : Word),
    s.wire.target.ref = some r → r.phase = .dataOut config [] →
    s.wire.pins = ⟨⟨.output, false⟩, ⟨.output, false⟩, ⟨.output, false⟩⟩ →
    ∃ t r', exec (.wrdata word) s = .next t ∧ t.wire.target.ref = some r' ∧
      r'.phase = .command [] ∧ r'.mem = r.mem ∧
      (config = true → r'.pc = 0x2000#16 ∧ r'.latch = r.latch ∧ r'.loaded = r.loaded) ∧
      (config = false → r'.pc = r.pc ∧ ∀ (j : Nat) (hj : j < 16),
        r'.latch[j] = (if j = r.pc.toNat % 16 then word.extractLsb' 0 14 else r.latch[j]) ∧
        r'.loaded.getLsbD j = (decide (j = r.pc.toNat % 16) || r.loaded.getLsbD j))

/-- begin-timed-program on the reference target, whichever post-delay: in the pointer's row every word whose
latch is loaded becomes its old value AND the latch, every other word of the memory reads as before, all
latches are unloaded, the pointer stays (R70, R75; that a word past `0x2007` is left alone is the model's
choice, log entry 14). -/
def Obligations.TargetProgramsLoadedRow : Prop :=
  ∀ (s : State) (r : RefTarget) (fuseWord : Bool), s.params.codes.Distinct →
    s.wire.target.ref = some r → r.phase = .command [] →
    s.wire.pins = ⟨⟨.output, false⟩, ⟨.output, false⟩, ⟨.output, false⟩⟩ →
    ∃ t r', exec (.beginTimedProgram fuseWord) s = .next t ∧ t.wire.target.ref = some r' ∧
      r'.pc = r.pc ∧ r'.loaded = 0 ∧ r'.latch = r.latch ∧
      ∀ a, r'.mem.read a =
        if a ≤ 0x2007 ∧ a / 16 = r.pc.toNat / 16 ∧ r.loaded.getLsbD (a % 16) = true then
          r.mem.read a &&& r.latch[a % 16]'(Nat.mod_lt _ (by decide))
        else r.mem.read a
end

