-- ==== Sys2Proof/Tests/Slice0.lean ====
section
/-! SUPPORT. Small tests: the well-formedness checks, every constructor's decoding from a word written out
from the spec's encodings, at most two steps per instruction against the vectors of 95_test_vectors.md,
and for every obligation with hypotheses a witness that meets them. -/

namespace Sys2Proof.Tests

open Sys2Proof Sys2Proof.Machine

/-! ### Helpers -/

/-- `TABLE_1` of 95_test_vectors.md. -/
def table1 : List Row := [⟨0xCC, "PIC10F322", 0x200⟩]

/-- `TABLE_2` of 95_test_vectors.md. -/
def table2 : List Row :=
  [⟨0xCC, "PIC10F322", 0x200⟩, ⟨0xCD, "ROW_B", 0x400⟩, ⟨0xCC, "ROW_DUP", 0x800⟩, ⟨0x1FF, "ROW_ONES", 0x10⟩]

/-- The defaults of R8 but for the setup and hold delays, which differ so that each shows its place;
made-up values for what is OPEN, and a table. -/
def params (t : List Row) : Params where
  codes := Codes.default
  key := 0x4D434850
  idIncrements := 6
  tSetup := 2
  tHold := 3
  tCo := 11
  tDly := 12
  tEntHigh := 13
  tEntLow := 14
  tErase := 5000
  tProg := 2500
  tProgCfg := 5000
  table := t
  programMemorySize := 0x2008
  lvpMask := 0x100

/-- A block in a session, with a pointer and levels the target will answer. -/
def block (ap : BitVec 16) (known : Bool) (answers : List Bool) : State :=
  { State.reset with
    params := params table1
    wire := {
      pins := { Pins.reset with mclr := ⟨.output, false⟩ }
      trace := []
      target := ⟨answers, 0, none⟩ }
    seq := { session := .programMode, ap := ap, apKnown := known, phase := .idle } }

/-- A block in a session with the reference target at the other end. -/
def wired (r : RefTarget) : State :=
  { block 0 true [] with wire := { (block 0 true []).wire with target := ⟨[], 0, some r⟩ } }

/-- A reference target in programming mode at word 0, with word 5 holding `0x1234`. -/
def device : RefTarget :=
  ⟨0, [(5, 0x1234)], Vector.replicate 16 0x0FF0, 0x0021, .command []⟩

/-- A block whose reset input is set. -/
def resetting (s : State) : State := { s with resetPending := true }

/-- A block whose next request is a host request. -/
def asked (w : BitVec 52) : State := { block 0 true [] with requests := [.hostop w] }

/-- The state a step ends in. -/
def after (o : Host.Outcome State Fault Refusal) : Option State :=
  match o with
  | .next t => some t
  | .fault _ => none
  | .refused _ => none

/-- The levels a receiver reads at the falling clock edges of a step. -/
def falls (i : Instr) (s : State) : Option (List Level) :=
  (after (exec i s)).map fun t => dataAtFalls s.wire.pins t.wire.trace

/-- The shadow pointer after a step. -/
def pointer (i : Instr) (s : State) : Option (BitVec 16 × Bool) :=
  (after (exec i s)).map fun t => (t.seq.ap, t.seq.apKnown)

/-- The bits of a string of zeros and ones, in time order. -/
def bits (s : List Nat) : List Bool := s.map fun n => n = 1

/-! ### Well-formedness: an ill-formed term for each check -/

theorem test_reserved_select_below_8_refused :
    (Instr.reservedOp 7).wellFormed Codes.default = false := by decide

theorem test_named_code_is_no_other_command :
    (Instr.otherCommand 0x16 0).wellFormed Codes.default = false := by decide

theorem test_reserved_select_8_accepted :
    (Instr.reservedOp 8).wellFormed Codes.default = true := by decide

theorem test_unnamed_code_accepted :
    (Instr.otherCommand 0x3F 0).wellFormed Codes.default = true := by decide

/-! ### Decoding: one word per constructor, fields written out from R82 to R92 -/

theorem test_decode_sendcmd :
    decode (params []) (.hostop (0b0000#4 ++ 0b1111111111#10 ++ 0b000100#6 ++ 2500#32)) =
      .ok (.sendcmd 0x04 2500) := by decide

theorem test_decode_wrdata :
    decode (params []) (.hostop (0b0001#4 ++ 0x1234#16 ++ 0xFFFFFFFF#32)) = .ok (.wrdata 0x1234) := by
  decide

theorem test_decode_rddata :
    decode (params []) (.hostop (0b0010#4 ++ 0xFFFF#16 ++ 0#32)) = .ok .rddata := by decide

theorem test_decode_enter :
    decode (params []) (.hostop (0b0011#4 ++ 0#16 ++ 1#32)) = .ok .enter := by decide

theorem test_decode_exit :
    decode (params []) (.hostop (0b0100#4 ++ 0#16 ++ 0#32)) = .ok .exit := by decide

theorem test_decode_rstaddr :
    decode (params []) (.hostop (0b0101#4 ++ 0#16 ++ 0#32)) = .ok .rstaddr := by decide

theorem test_decode_incaddr :
    decode (params []) (.hostop (0b0110#4 ++ 0#16 ++ 0#32)) = .ok .incaddr := by decide

theorem test_decode_rddevid :
    decode (params []) (.hostop (0b0111#4 ++ 0#16 ++ 0#32)) = .ok .rddevid := by decide

theorem test_decode_reserved :
    decode (params []) (.hostop (0b1000#4 ++ 0x1234#16 ++ 7#32)) = .ok (.reservedOp 8) ∧
      decode (params []) (.hostop (0b1111#4 ++ 0#16 ++ 0#32)) = .ok (.reservedOp 15) := by decide

theorem test_decode_load_config : decode (params []) (.cmd6 0b000000 0) = .ok .loadConfig := by decide

theorem test_decode_load_for_program :
    decode (params []) (.cmd6 0b000010 0) = .ok .loadForProgram := by decide

theorem test_decode_read_from_program :
    decode (params []) (.cmd6 0b000100 0) = .ok .readFromProgram := by decide

theorem test_decode_increment_address :
    decode (params []) (.cmd6 0b000110 0) = .ok .incrementAddress := by decide

theorem test_decode_begin_timed_program :
    decode (params []) (.cmd6 0b001000 0) = .ok (.beginTimedProgram false) ∧
      decode (params []) (.cmd6 0b001000 1) = .ok (.beginTimedProgram true) := by decide

theorem test_decode_bulk_erase : decode (params []) (.cmd6 0b001001 0) = .ok .bulkErase := by decide

theorem test_decode_reset_address :
    decode (params []) (.cmd6 0b010110 0) = .ok .resetAddress := by decide

theorem test_decode_other_command :
    decode (params []) (.cmd6 0b111111 9) = .ok (.otherCommand 0x3F 9) := by decide

theorem test_decode_data_out_frame :
    decode (params []) (.dout16 (0b1#1 ++ 0b01001000110100#14 ++ 0b0#1)) =
      .ok (.dataOutFrame true 0x1234) := by decide

theorem test_start_bit_rejected : decode (params []) (.dout16 1) = .error .startBitSet := by decide

theorem test_decode_data_in_frame :
    decode (params []) (.din16 (0b1#1 ++ 0b01100110000000#14 ++ 0b1#1)) =
      .ok (.dataInFrame true 0x1980 true) := by decide

theorem test_decode_key_frame :
    decode (params []) (.key33 0b001001101010000110100100001010000#33) = .ok .keyFrame := by decide

theorem test_wrong_key_rejected : decode (params []) (.key33 0) = .error .notTheKey := by decide

theorem test_decode_id_word :
    decode (params []) (.idword16 (0b11#2 ++ 0b011001100#9 ++ 0b00101#5)) = .ok (.idWord 3 0xCC 5) := by
  decide

/-- Words in the numbering of spec/opcode_table.json. -/
theorem test_table_words :
    decodeTableWord 56 0x3 = some .enter ∧
      decodeTableWord 56 0x12341 = some (.wrdata 0x1234) ∧
      decodeTableWord 8 0x16 = some .resetAddress ∧
      decodeTableWord 8 0x3F = some (.otherCommand 0x3F 0) ∧
      decodeTableWord 16 0x2468 = some (.dataOutFrame false 0x1234) ∧
      decodeTableWord 40 0x4D434850 = some .keyFrame := by decide

theorem test_step_runs_fetched_word :
    step (State.reset.withFetchWord 56 0x3) = exec .enter State.reset := rfl

/-! ### Bit-link primitives -/

/-- V10, the whole trace. -/
theorem test_sendcmd_trace :
    (after (exec (.sendcmd 0x16 1) (block 7 false []))).map (fun t => t.wire.trace) = some [
      .set .clk true, .set .data false, .delay 2, .set .clk false, .delay 3,
      .set .clk true, .set .data true, .delay 2, .set .clk false, .delay 3,
      .set .clk true, .set .data true, .delay 2, .set .clk false, .delay 3,
      .set .clk true, .set .data false, .delay 2, .set .clk false, .delay 3,
      .set .clk true, .set .data true, .delay 2, .set .clk false, .delay 3,
      .set .clk true, .set .data false, .delay 2, .set .clk false, .delay 3,
      .set .data false, .delay 1] := by rfl

/-- V10, the end state; V12, the pointer. -/
theorem test_sendcmd_pointer :
    pointer (.sendcmd 0x16 1) (block 7 false []) = some (0, true) ∧
      pointer (.sendcmd 0x3F 0) (block 7 true []) = some (7, false) := by decide

/-- V14, the row of `0x1234`. -/
theorem test_wrdata_bits :
    falls (.wrdata 0x1234) (block 7 true []) = some (bits [0,0,0,1,0,1,1,0,0,0,1,0,0,1,0,0]) := by decide

/-- V14, the row of `0xFFFF`: bit 15 is lost; the pointer stays. -/
theorem test_wrdata_drops_bit_15 :
    falls (.wrdata 0xFFFF) (block 7 true []) = some (bits [0,1,1,1,1,1,1,1,1,1,1,1,1,1,1,1]) ∧
      pointer (.wrdata 0xFFFF) (block 7 true []) = some (7, true) := by decide

/-- V7 with C1: samples 1,0,1,1 and zeros give `RXW = 0x000D`, `RES = 0x0006`. -/
theorem test_rddata_unframes :
    (after (exec .rddata (block 7 true (bits [1,0,1,1,0,0,0,0,0,0,0,0,0,0,0,0])))).map
      (fun t => (t.data.rxw, t.data.res, t.wire.trace.length)) = some (0x000D, 0x0006, 82) := by decide

/-- V15, the last row: the last slot arrives in `RES[14]`. -/
theorem test_rddata_last_slot :
    (after (exec .rddata (block 7 true (bits [0,0,0,0,0,0,0,0,1,1,0,0,1,1,0,1])))).map
      (fun t => (t.data.rxw, t.data.res, t.responses)) = some (0xB300, 0x5980, [⟨.ok, 0x5980⟩]) := by decide

/-! ### Sequencer -/

/-- V20, the bits of the key and the additional pulse. -/
theorem test_enter_bits :
    falls .enter (block 0x10 true []) = some (bits [
      0,0,0,0,1,0,1,0, 0,0,0,1,0,0,1,0, 1,1,0,0,0,0,1,0, 1,0,1,1,0,0,1,0, 0]) := by decide +kernel

/-- V24, the end state. -/
theorem test_enter_state :
    (after (exec .enter (block 0x10 true []))).map (fun t =>
      (t.seq.session, t.wire.pins.mclr, t.seq.apKnown, t.status)) =
        some (.programMode, ⟨.output, false⟩, false, .ok) := by decide

/-- V21. -/
theorem test_exit_trace :
    (after (exec .exit (block 7 true []))).map (fun t => (t.wire.trace, t.seq.session, t.wire.pins)) =
      some ([.set .clk false, .set .data false, .dir .mclr .input], .unpowered, Pins.reset) := by decide

/-- V62: `STATUS` is not sticky. -/
theorem test_exit_overwrites_status :
    (after (exec .exit { block 7 true [] with status := .deviceNotRecognized })).map
      (fun t => t.status) = some .ok := by decide

/-- V25. -/
theorem test_rstaddr :
    falls .rstaddr (block 7 false []) = some (bits [0,1,1,0,1,0]) ∧
      pointer .rstaddr (block 7 false []) = some (0, true) := by decide

/-- V26 and V40, inside the ranges. -/
theorem test_incaddr_inside :
    falls .incaddr (block 0 true []) = some (bits [0,1,1,0,0,0]) ∧
      pointer .incaddr (block 0x1FFE true []) = some (0x1FFF, true) ∧
      pointer .incaddr (block 0x2006 true []) = some (0x2007, true) := by decide

/-- V40, leaving the ranges. -/
theorem test_incaddr_leaving :
    pointer .incaddr (block 0x1FFF true []) = some (0x2000, false) ∧
      pointer .incaddr (block 0x2007 true []) = some (0x2008, false) ∧
      pointer .incaddr (block 0xFFFF true []) = some (0, false) ∧
      pointer .incaddr (block 0x1234 false []) = some (0x1234, false) := by decide

/-- P1, step 2. -/
theorem test_rddevid_match :
    (after (exec .rddevid (block 0 false (bits [0,0,0,0,0,0,0,0,1,1,0,0,1,1,0,0])))).map
      (fun t => (t.data.res, t.dev.id, t.dev.rev, t.dev.size, t.seq.ap, t.wire.trace.length)) =
        some (0x1980, 0xCC, 0, 0x200, 0x2006, 419) := by decide +kernel

/-- V34: `W = 0x19A0` is in no row of `TABLE_1`. -/
theorem test_rddevid_no_match :
    (after (exec .rddevid (block 0 false (bits [0,0,0,0,0,0,1,0,1,1,0,0,1,1,0,0])))).map
      (fun t => (t.data.res, t.dev.id, t.dev.valid, t.imgAlloc, t.status, t.seq.apKnown)) =
        some (0x19A0, 0xCD, false, false, .deviceNotRecognized, true) := by decide +kernel

/-- V60. -/
theorem test_reserved_op :
    (after (exec (.reservedOp 0xF) (block 7 true []))).map
      (fun t => (t.status.code, t.responses, t.wire.trace)) = some (4, [⟨.illegalOp, 0⟩], []) := by decide

/-! ### ICSP commands (V11, V41, V42, V45) -/

theorem test_load_config :
    falls .loadConfig (block 7 false []) = some (bits [0,0,0,0,0,0]) ∧
      pointer .loadConfig (block 7 false []) = some (0x2000, true) := by decide

theorem test_load_for_program :
    falls .loadForProgram (block 7 true []) = some (bits [0,1,0,0,0,0]) ∧
      pointer .loadForProgram (block 7 true []) = some (7, true) := by decide

theorem test_read_from_program :
    falls .readFromProgram (block 7 true []) = some (bits [0,0,1,0,0,0]) ∧
      pointer .readFromProgram (block 7 true []) = some (7, true) := by decide

theorem test_increment_address :
    falls .incrementAddress (block 0xF true []) = some (bits [0,1,1,0,0,0]) ∧
      pointer .incrementAddress (block 0xF true []) = some (0x10, true) := by decide

theorem test_begin_timed_program :
    falls (.beginTimedProgram false) (block 0xF true []) = some (bits [0,0,0,1,0,0]) ∧
      (after (exec (.beginTimedProgram false) (block 0xF true []))).map
        (fun t => t.wire.trace.getLast?) = some (some (.delay 2500)) := by decide

theorem test_begin_timed_program_fuse :
    (after (exec (.beginTimedProgram true) (block 0x2007 true []))).map
      (fun t => (t.wire.trace.getLast?, t.seq.ap)) = some (some (.delay 5000), 0x2007) := by decide

theorem test_bulk_erase :
    falls .bulkErase (block 7 true []) = some (bits [1,0,0,1,0,0]) ∧
      (after (exec .bulkErase (block 7 true []))).map
        (fun t => (t.wire.trace.getLast?, t.seq.ap)) = some (some (.delay 5000), 7) := by decide

theorem test_reset_address :
    falls .resetAddress (block 0x2007 true []) = some (bits [0,1,1,0,1,0]) ∧
      pointer .resetAddress (block 0x2007 true []) = some (0, true) := by decide

theorem test_other_command :
    falls (.otherCommand 0x2A 0) (block 7 true []) = some (bits [0,1,0,1,0,1]) ∧
      pointer (.otherCommand 0x2A 0) (block 7 true []) = some (7, false) := by decide

/-! ### Frames and the ID word -/

theorem test_data_out_frame :
    falls (.dataOutFrame true 0x1234) (block 7 true []) =
      some (bits [0,0,0,1,0,1,1,0,0,0,1,0,0,1,0,1]) := by decide

theorem test_data_in_frame :
    (after (exec (.dataInFrame true 0x1980 true) (block 7 true []))).map
      (fun t => (t.data.rxw, t.data.res, t.responses)) = some (0xB301, 0x5980, []) := by decide

theorem test_key_frame :
    (after (exec .keyFrame (block 7 true []))).map
      (fun t => (t.wire.trace.length, t.data.txw, t.seq.apKnown, t.seq.session)) =
        some (165, 0x4D434850, true, .programMode) := by decide +kernel

/-- V31: the first of two rows with the ID wins. -/
theorem test_id_word_first_match :
    (after (exec (.idWord 0 0xCC 5) { block 7 true [] with params := params table2 })).map
      (fun t => (t.dev, t.imgAlloc, t.status)) =
        some (⟨true, "PIC10F322", 0x200, 5, 0xCC⟩, true, .ok) := by rfl

/-- V36: a second, failing readout clears the device and keeps the allocation. -/
theorem test_id_word_no_match :
    (after (exec (.idWord 0 0 0)
        { block 7 true [] with imgAlloc := true, dev := ⟨true, "PIC10F322", 0x200, 5, 0xCC⟩ })).map
      (fun t => (t.dev, t.imgAlloc, t.status)) =
        some (⟨false, "", 0, 0, 0⟩, true, .deviceNotRecognized) := by rfl

/-- V30, V33: fields of the ID word. -/
theorem test_id_fields :
    (deviceIdOf 0xD980, deviceRevOf 0xD980) = (0xCC, 0) ∧
      (deviceIdOf 0x7FFF, deviceRevOf 0x7FFF) = (0x1FF, 0x1F) ∧
      (deviceIdOf 0x0020, deviceRevOf 0x0020) = (1, 0) := by decide

/-! ### Reset, memory, the reference target, the host sequences -/

/-- V61. -/
theorem test_reset :
    (State.reset.seq.session.code, State.reset.wire.pins.clk, State.reset.wire.trace) =
      (0, ⟨.output, false⟩, []) := by decide

/-- R230, R231: the reset closes the session and empties the trace, whatever is requested; the target's
pointer, mode and memory are whatever they were. -/
theorem test_reset_keeps_target :
    (after (step (resetting { wired { device with pc := 5 } with requests := [.hostop 0] }))).map
      (fun t => (t.seq.session, t.wire.pins, t.wire.trace, t.wire.target.ref)) =
        some (.unpowered, Pins.reset, [], some { device with pc := 5 }) := by decide

theorem test_memory_forms :
    Memory.write [(5, 0x1234)] 5 0x3FFF = [] ∧ Memory.write [(5, 1)] 3 2 = [(3, 2), (5, 1)] ∧
      Memory.read [(5, 1)] 4 = 0x3FFF ∧ Memory.bulkErase [(5, 1), (0x2006, 2), (0x2007, 3)] = [(0x2006, 2)] := by
  decide

/-- R75: the loaded latches 0 and 5 of row 0 are programmed, bit by bit. -/
theorem test_target_programs :
    (after (exec (.beginTimedProgram false) (wired device))).map
      (fun t => t.wire.target.ref.map fun r => (r.mem, r.loaded)) =
        some (some ([(0, 0x0FF0), (5, 0x0230)], 0)) := by decide +kernel

/-- R73: read-from-program and RDDATA answer the word at the pointer. -/
theorem test_target_answers :
    (after (exec (.sendcmd 0x04 0) (wired { device with pc := 5 }))).bind
      (fun t => (after (exec .rddata t)).map fun u => (u.data.rxw, u.data.res)) =
        some (0x2468, 0x1234) := by decide +kernel

/-- V50: 64 events, the pointer at 0. -/
theorem test_bulk_erase_sequence :
    ((bulkErase (block 7 false [])).wire.trace.length, (bulkErase (block 7 false [])).seq.ap) = (64, 0) := by
  decide

/-- V53: word 0 reads `0x3FFE`. -/
theorem test_blank_check_fails :
    (blankCheck { block 7 false (bits [0,0,1,1,1,1,1,1,1,1,1,1,1,1,1,0]) with
      dev := ⟨true, "X", 0x10, 0, 0⟩ }).1 = .notBlank 0 0x3FFE := by decide +kernel

/-- V56: the LVP bit is not compared, another bit is. -/
theorem test_verify_fuse :
    (verifyFuse { block 7 false (bits [0,1,1,1,1,1,1,1,1,1,1,1,1,1,1,0]) with
        image := [(0x2007, 0x3EFF)] }).1 = .success ∧
      (verifyFuse { block 7 false (bits [0,0,1,1,1,1,1,1,1,0,1,1,1,1,1,0]) with
        image := [(0x2007, 0x3EFF)] }).1 = .verifyMismatch 0x2007 0x3EFE 0x3EFF := by decide +kernel

/-! ### Witnesses: the hypotheses of every obligation that has some are met together -/

theorem witness_DecodeOfEncode :
    (params []).codes.Distinct ∧ (Instr.otherCommand 0x3F 9).wellFormed (params []).codes = true ∧
      (Instr.reservedOp 8).wellFormed (params []).codes = true := by decide

theorem witness_DecodedIsWellFormed :
    decode (params []) (.cmd6 0x3F 9) = .ok (.otherCommand 0x3F 9) ∧
      decode (params []) (.hostop 0x8000000000000) = .ok (.reservedOp 8) := by decide

theorem witness_FrameWordsAreLossless :
    (∀ w, Encoded.dout16 0x2468 ≠ .hostop w) ∧ (∀ c o, Encoded.dout16 0x2468 ≠ .cmd6 c o) ∧
      decode (params []) (.dout16 0x2468) = .ok (.dataOutFrame false 0x1234) :=
  ⟨nofun, nofun, by decide⟩

theorem witness_HostRequestSelectsOperation : 8#4 ≤ 8#4 ∧ 8#4 ≤ 15#4 := by decide

theorem witness_StepRunsDecodedInstruction :
    ((asked 0x3000000000000).resetPending = false ∧
      (asked 0x3000000000000).requests = .hostop 0x3000000000000 :: [] ∧
      decode (asked 0x3000000000000).params (.hostop 0x3000000000000) = .ok .enter) ∧
    (resetting (asked 0x3000000000000)).resetPending = true := by decide

theorem witness_StepWithoutRequestWaits :
    State.reset.resetPending = false ∧ State.reset.requests = [] := ⟨rfl, rfl⟩

theorem witness_EveryHostRequestCompletes :
    (asked 0x9000000000000).resetPending = false ∧
      (asked 0x9000000000000).requests = .hostop 0x9000000000000 :: [] := ⟨rfl, rfl⟩

theorem witness_RddataReadsQueuedLevels :
    (block 7 true (List.replicate 16 true)).wire.target.ref = none ∧
      16 ≤ (block 7 true (List.replicate 16 true)).wire.target.answers.length := by decide

theorem witness_IncaddrAdvancesKnownPointer :
    (block 0x1FFF true []).params.codes.Distinct ∧ (block 0x1FFF true []).seq.apKnown = true ∧
      (block 0x1FFE true []).seq.apKnown = true ∧ (block 0x2006 true []).seq.apKnown = true ∧
      (block 0x2007 true []).seq.apKnown = true ∧ (block 0x2007 false []).seq.apKnown = false := by decide

theorem witness_RddevidReadsAndResolves :
    (block 0 false (List.replicate 16 true)).params.codes.Distinct ∧
      (block 0 false []).params.idIncrements ≤ 7 ∧
      (block 0 false (List.replicate 16 true)).wire.target.ref = none ∧
      16 ≤ (block 0 false (List.replicate 16 true)).wire.target.answers.length ∧
      lookup (block 0 false []).params.table 0xCC = some ⟨0xCC, "PIC10F322", 0x200⟩ ∧
      lookup (block 0 false []).params.table 0xCD = none := by decide

theorem witness_ReservedRequestIsIllegal :
    (asked 0x8000000000000).seq.phase = .idle ∧ (asked 0x8000000000000).resetPending = false ∧
      (asked 0x8000000000000).requests = .hostop 0x8000000000000 :: [] ∧
      8#4 ≤ hostOp 0x8000000000000 ∧ 8#4 ≤ hostOp 0xF000000000000 := by decide

theorem witness_NamedCommandsSendTheirFrame :
    (Instr.bulkErase, 0x09#6, 5000) ∈ [
      (Instr.loadConfig, (block 7 true []).params.codes.loadConfig, (block 7 true []).params.tDly),
      (Instr.loadForProgram, (block 7 true []).params.codes.loadForProgram, (block 7 true []).params.tDly),
      (Instr.readFromProgram, (block 7 true []).params.codes.readFromProgram, (block 7 true []).params.tDly),
      (Instr.incrementAddress, (block 7 true []).params.codes.incrementAddress, (block 7 true []).params.tDly),
      (Instr.beginTimedProgram false, (block 7 true []).params.codes.beginTimedProgram,
        (block 7 true []).params.tProg),
      (Instr.beginTimedProgram true, (block 7 true []).params.codes.beginTimedProgram,
        (block 7 true []).params.tProgCfg),
      (Instr.bulkErase, (block 7 true []).params.codes.bulkErase, (block 7 true []).params.tErase),
      (Instr.resetAddress, (block 7 true []).params.codes.resetAddress, (block 7 true []).params.tDly)] := by
  decide

theorem witness_OtherCommandForgetsPointer : 0x3F#6 ∉ (block 7 true []).params.codes.toList := by decide

theorem witness_DataInFrameIsUnframed : (block 7 true [true]).wire.target.ref = none := rfl

theorem witness_IdWordMatchPopulatesDevice :
    lookup { block 7 true [] with params := params table2 }.params.table 0x1FF =
      some ⟨0x1FF, "ROW_ONES", 0x10⟩ := by decide

theorem witness_IdWordNoMatchIsRaised : lookup (block 7 true []).params.table 0x1FF = none := by decide

/-- Both directions of the lookup's clause, and the clause without a match. -/
theorem witness_LookupFindsFirstMatch :
    lookup table2 0xCC = some ⟨0xCC, "PIC10F322", 0x200⟩ ∧
      (table2[0]? = some ⟨0xCC, "PIC10F322", 0x200⟩ ∧
        ∀ k, k < 0 → ∀ q : Row, table2[k]? = some q → q.deviceId ≠ 0xCC#9) ∧
      lookup table2 0 = none ∧ ∀ r ∈ table2, r.deviceId ≠ 0#9 :=
  ⟨by decide, ⟨rfl, fun _ h => absurd h (Nat.not_lt_zero _)⟩, by decide, by decide⟩

/-- The first row of `TABLE_1` with the ID words that hold its ID, and a word with no row's ID. -/
theorem witness_EveryFirstRowIsResolved :
    ((block 7 true []).params.table[0]? = some ⟨0xCC, "PIC10F322", 0x200⟩ ∧
      (∀ k, k < 0 → ∀ q : Row, (block 7 true []).params.table[k]? = some q → q.deviceId ≠ 0xCC#9) ∧
      (0x199F#16).extractLsb' 5 9 = 0xCC#9) ∧
    ∀ r ∈ (block 7 true []).params.table, (0x19A0#16).extractLsb' 5 9 ≠ r.deviceId :=
  ⟨⟨rfl, fun _ h => absurd h (Nat.not_lt_zero _), by decide⟩, by decide⟩

theorem witness_UnframingUndoesFraming : 0x3FFF#16 ≤ 0x3FFF#16 ∧ 0#16 ≤ 0x3FFF#16 := by decide

/-- One code for each clause, the increment at the ends of both ranges, and one instruction of each form. -/
theorem witness_ShadowPointerFollowsCode :
    (block 7 true []).params.codes.Distinct ∧
      0x16#6 = (block 7 true []).params.codes.resetAddress ∧
      0x00#6 = (block 7 true []).params.codes.loadConfig ∧
      0x06#6 = (block 0x1FFE true []).params.codes.incrementAddress ∧
      ((block 0x1FFE true []).seq.apKnown = true ∧ (block 0x1FFE true []).seq.ap ≠ 0x1FFF#16 ∧
        (block 0x1FFE true []).seq.ap < 0x2007#16 ∧ (block 0x2006 true []).seq.ap < 0x2007#16) ∧
      ((block 0x1FFF true []).seq.ap = 0x1FFF#16 ∧ 0x2007#16 ≤ (block 0x2007 true []).seq.ap) ∧
      (block 0x2007 false []).seq.apKnown = false ∧
      0x09#6 ∈ [(block 7 true []).params.codes.loadForProgram, (block 7 true []).params.codes.readFromProgram,
        (block 7 true []).params.codes.beginTimedProgram, (block 7 true []).params.codes.bulkErase] ∧
      0x3F#6 ∉ (block 7 true []).params.codes.toList ∧
      (Instr.incaddr, 0x06#6) ∈ [(Instr.incaddr, (block 7 true []).params.codes.incrementAddress)] := by decide

theorem witness_CommandFrameOnTheWire : Pins.reset.clk.lvl = false := rfl

/-- A step without a reset pending and one with it. -/
theorem witness_ParametersNeverChange :
    State.reset.resetPending = false ∧ step State.reset = .next State.reset ∧
      step (resetting (block 7 true [])) = .next (resetting (block 7 true [])).blockReset := ⟨rfl, rfl, rfl⟩

theorem witness_TraceOnlyGrows : exec .exit State.reset = .next (runExit State.reset) := rfl

theorem witness_EventsDoNotDependOnState :
    (block 7 true [true]).params = (block 0 false []).params ∧
      exec .rddata (block 0 false []) = .next (runRddata (block 0 false [])) ∧
      exec .rddata (block 7 true [true]) = .next (runRddata (block 7 true [true])) := ⟨rfl, rfl, rfl⟩

theorem witness_NoOperationTestsTheSession :
    exec .rddata (block 7 true []) = .next (runRddata (block 7 true [])) ∧
      exec .rddata { block 7 true [] with
          seq := State.reset.seq, dev := State.reset.dev, status := .illegalOp, imgAlloc := true } =
        .next (runRddata { block 7 true [] with
          seq := State.reset.seq, dev := State.reset.dev, status := .illegalOp, imgAlloc := true }) :=
  ⟨rfl, rfl⟩

theorem witness_ResultAndDeviceHaveTheirWriters :
    exec .enter State.reset = .next (runEnter State.reset) ∧ Instr.enter ≠ .rddata ∧
      Instr.enter ≠ .rddevid ∧ (∀ l w f, Instr.enter ≠ .dataInFrame l w f) ∧
      ∀ x d r, Instr.enter ≠ .idWord x d r :=
  ⟨rfl, by decide, by decide, nofun, nofun⟩

theorem witness_OnlyEnterAndExitMoveTheSession :
    exec .rddata State.reset = .next (runRddata State.reset) ∧ Instr.rddata ≠ .enter ∧
      Instr.rddata ≠ .exit := ⟨rfl, by decide, by decide⟩

theorem witness_HostOperationsAreAnswered :
    exec .rddata State.reset = .next (runRddata State.reset) ∧
      exec .exit State.reset = .next (runExit State.reset) ∧
      (Instr.rddata = .rddata ∨ Instr.rddata = .rddevid) ∧
      ((∃ c d, Instr.exit = .sendcmd c d) ∨ (∃ w, Instr.exit = .wrdata w) ∨ Instr.exit = .enter ∨
        Instr.exit = .exit ∨ Instr.exit = .rstaddr ∨ Instr.exit = .incaddr ∨
        ∃ op, Instr.exit = .reservedOp op) :=
  ⟨rfl, rfl, .inl rfl, .inr (.inr (.inr (.inl rfl)))⟩

theorem witness_StatusHasOneCause :
    exec (.reservedOp 8) State.reset = .next (runReserved State.reset) := rfl

/-- The invariant holds of a block in a session whose next request is `EXIT`, and a step is taken. -/
theorem witness_StepKeepsInvariant :
    Inv (asked 0x4000000000000) ∧
      ∃ t, step (asked 0x4000000000000) = .next t := by
  refine ⟨?_, _, rfl⟩
  exact {
    params := by decide
    clk := rfl
    data := rfl
    mclrLow := rfl
    mclrDriven := fun _ => rfl
    mclrReleased := fun h => by cases h
    session := .inr rfl
    phase := rfl
    pointer := fun _ => by decide
    status := .inl rfl
    deviceName := by decide
    deviceSize := by decide
    deviceRev := fun _ => rfl
    allocated := fun h => by cases h
    image := rfl
    result := rfl
    memory := fun r h => by cases h }

theorem witness_BitCounterEndsAtLastIndex :
    Instr.rstaddr ∈ [Instr.sendcmd 0x3F 0, .rstaddr] ∧ Instr.rddevid ∈ [Instr.wrdata 0, .rddata, .rddevid] ∧
      Instr.keyFrame ∈ [Instr.enter, .keyFrame] ∧ Instr.reservedOp 8 ∈ [Instr.exit, .reservedOp 8] := by
  decide

theorem witness_ResetLeavesTheStatedValues :
    (block 7 true []).blockReset = State.reset ∨ ∃ s, (block 7 true []).blockReset = State.blockReset s :=
  .inr ⟨block 7 true [], rfl⟩

theorem witness_ExitRestoresResetPins : Inv (asked 0x4000000000000) := witness_StepKeepsInvariant.1

theorem witness_BulkEraseSequence : (block 7 true []).params.codes.Distinct := by decide

theorem witness_DumpReportsFuseWord :
    (block 7 true (List.replicate 16 false)).params.codes.Distinct ∧
      (block 7 true (List.replicate 16 false)).wire.target.ref = none ∧
      16 ≤ (block 7 true (List.replicate 16 false)).wire.target.answers.length := by decide

/-- Two words: both blank; the last word not blank; the first word not blank. -/
theorem witness_BlankCheckFindsFirstProgrammedWord :
    (block 7 true []).wire.target.ref = none ∧
      16 * (2#16).toNat ≤ (List.replicate 32 true).length ∧
      (∀ j, j < 2 → unframeWord (queuedFrameAt (List.replicate 32 true) j) &&& 0x3FFF#16 = 0x3FFF#16) ∧
      ((∀ j, j < 1 → unframeWord (queuedFrameAt (List.replicate 16 true ++ List.replicate 16 false) j)
          &&& 0x3FFF#16 = 0x3FFF#16) ∧
        unframeWord (queuedFrameAt (List.replicate 16 true ++ List.replicate 16 false) 1)
          &&& 0x3FFF#16 ≠ 0x3FFF#16) ∧
      unframeWord (queuedFrameAt (List.replicate 32 false) 0) &&& 0x3FFF#16 ≠ 0x3FFF#16 := by
  decide +kernel

/-- What the statements about the reference target ask of the state, with one code for each clause. -/
theorem witness_TargetReceivesCommand :
    (wired device).params.codes.Distinct ∧ (wired device).wire.target.ref = some device ∧
      device.phase = .command [] ∧
      (wired device).wire.pins = ⟨⟨.output, false⟩, ⟨.output, false⟩, ⟨.output, false⟩⟩ ∧
      0x16#6 = (wired device).params.codes.resetAddress ∧
      0x06#6 = (wired device).params.codes.incrementAddress ∧
      0x00#6 = (wired device).params.codes.loadConfig ∧
      0x02#6 = (wired device).params.codes.loadForProgram ∧
      0x09#6 = (wired device).params.codes.bulkErase ∧
      0x3F#6 ∉ (wired device).params.codes.toList ∧
      0x04#6 ≠ (wired device).params.codes.beginTimedProgram ∧
      0x04#6 ≠ (wired device).params.codes.bulkErase := by decide

theorem witness_TargetFollowsEntryAndExit :
    (wired { device with phase := .off }).wire.target.ref = some { device with phase := .off } ∧
      (wired device).wire.pins.clk.dir = .output ∧ (wired device).wire.pins.data.dir = .output ∧
      (wired device).wire.pins.clk.lvl = false ∧
      (resetting (wired device)).wire.target.ref = some device ∧
      (resetting (wired device)).resetPending = true := by decide

theorem witness_TargetAnswersRead :
    (wired device).params.codes.Distinct ∧ (wired device).wire.target.ref = some device ∧
      device.phase = .command [] ∧
      (wired device).wire.pins = ⟨⟨.output, false⟩, ⟨.output, false⟩, ⟨.output, false⟩⟩ ∧
      ∃ t u, exec (.sendcmd (wired device).params.codes.readFromProgram 0) (wired device) = .next t ∧
        exec .rddata t = .next u :=
  ⟨by decide, rfl, rfl, rfl, _, _, rfl, rfl⟩

theorem witness_TargetTakesDataFrame :
    (wired { device with phase := .dataOut true [] }).wire.target.ref =
        some { device with phase := .dataOut true [] } ∧
      (wired { device with phase := .dataOut false [] }).wire.target.ref =
        some { device with phase := .dataOut false [] } ∧
      (wired device).wire.pins = ⟨⟨.output, false⟩, ⟨.output, false⟩, ⟨.output, false⟩⟩ := ⟨rfl, rfl, rfl⟩

theorem witness_TargetProgramsLoadedRow :
    (wired device).params.codes.Distinct ∧ (wired device).wire.target.ref = some device ∧
      device.phase = .command [] ∧
      (wired device).wire.pins = ⟨⟨.output, false⟩, ⟨.output, false⟩, ⟨.output, false⟩⟩ ∧
      (5 / 16 = device.pc.toNat / 16 ∧ device.loaded.getLsbD (5 % 16) = true) := by decide

end Sys2Proof.Tests
end

section
/-! PROOFS. Which pin events each instruction adds, and that its pin registers are what these events made
of them (R10, R21, R60). -/

namespace Sys2Proof.Machine

/-- From the wire `w` to `w'` the events `es` joined the trace and moved the pin registers, and nothing
else did (R10, R21). Of the target at the other end this says nothing. -/
def Recorded (es : List PinEvent) (w w' : Wire) : Prop :=
  w'.trace = w.trace ++ es ∧ w'.pins = w.pins.after es

/-- The events of each instruction (R112 to R140, R166); `raw` is the word that the samples of `RDDATA` and
`RDDEVID` assemble to, the only part of a list that parameters and operands do not fix. -/
def instrEvents (p : Params) (raw : Word) : Instr → List PinEvent
  | .sendcmd cmd d => commandEvents p cmd d.toNat
  | .wrdata word => dataOutEvents p word
  | .rddata => dataInEvents p raw
  | .enter => enterEvents p
  | .exit => exitEvents
  | .rstaddr => commandEvents p p.codes.resetAddress p.tDly
  | .incaddr => commandEvents p p.codes.incrementAddress p.tDly
  | .rddevid => deviceIdEvents p raw
  | .reservedOp _ => []
  | .loadConfig => commandEvents p p.codes.loadConfig p.tDly
  | .loadForProgram => commandEvents p p.codes.loadForProgram p.tDly
  | .readFromProgram => commandEvents p p.codes.readFromProgram p.tDly
  | .incrementAddress => commandEvents p p.codes.incrementAddress p.tDly
  | .beginTimedProgram fuseWord => commandEvents p p.codes.beginTimedProgram (programDelay p fuseWord)
  | .bulkErase => commandEvents p p.codes.bulkErase p.tErase
  | .resetAddress => commandEvents p p.codes.resetAddress p.tDly
  | .otherCommand cmd d => commandEvents p cmd d.toNat
  | .dataOutFrame stop payload => dataOutEvents p (wordOfFrame stop payload)
  | .dataInFrame last payload first => dataInEvents p (rawOfFrame last payload first)
  | .keyFrame => keyEvents p
  | .idWord _ _ _ => []

theorem recorded_nil (w : Wire) : Recorded [] w w := ⟨(List.append_nil _).symm, rfl⟩

theorem recorded_emitAll (p : Params) (w : Wire) (es : List PinEvent) : Recorded es w (w.emitAll p es) :=
  ⟨wire_emitAll_trace es p w, wire_emitAll_pins es p w⟩

theorem sendCommand_recorded (cmd : Code) (d : Nat) (s : State) :
    Recorded (commandEvents s.params cmd d) s.wire (sendCommand cmd d s).wire := by
  rw [sendCommand_eq]; exact recorded_emitAll _ _ _

theorem writeData_recorded (word : Word) (s : State) :
    Recorded (dataOutEvents s.params word) s.wire (writeData word s).wire := by
  rw [writeData_eq]; exact recorded_emitAll _ _ _

theorem readData_given_recorded (raw : Word) (s : State) :
    Recorded (dataInEvents s.params raw) s.wire (readData (some raw) s).wire := by
  have h := readData_wire (some raw) s
  rw [readSamples_given] at h
  exact h

theorem shiftKey_recorded (s : State) : Recorded (keyEvents s.params) s.wire (shiftKey s).wire := by
  rw [shiftKey_eq]; exact recorded_emitAll _ _ _

theorem enterProgramMode_recorded (s : State) :
    Recorded (enterEvents s.params) s.wire (enterProgramMode s).wire := by
  rw [enterProgramMode_eq]; exact recorded_emitAll _ _ _

theorem exitProgramMode_recorded (s : State) : Recorded exitEvents s.wire (exitProgramMode s).wire := by
  rw [exitProgramMode_eq]; exact recorded_emitAll _ _ _

theorem resolve_recorded (w : Word) (s : State) : Recorded [] s.wire (resolve w s).wire := by
  rw [(resolve_frame w s).1]; exact recorded_nil _

/-- Every instruction adds exactly the events of its own list, for the word its samples assembled to.
The host's response never reaches the wire. -/
theorem exec_recorded {i : Instr} {s t : State} (h : exec i s = .next t) :
    ∃ raw, Recorded (instrEvents s.params raw i) s.wire t.wire := by
  cases i with
  | sendcmd cmd d => cases h; exact ⟨0, sendCommand_recorded _ _ s⟩
  | wrdata word => cases h; exact ⟨0, writeData_recorded _ s⟩
  | rddata => cases h; exact ⟨_, readData_wire none s⟩
  | enter => cases h; exact ⟨0, enterProgramMode_recorded s⟩
  | exit => cases h; exact ⟨0, exitProgramMode_recorded s⟩
  | rstaddr => cases h; exact ⟨0, sendCommand_recorded _ _ s⟩
  | incaddr => cases h; exact ⟨0, sendCommand_recorded _ _ s⟩
  | rddevid => cases h; exact ⟨_, readDeviceId_wire s⟩
  | reservedOp op => cases h; exact ⟨0, recorded_nil _⟩
  | loadConfig => cases h; exact ⟨0, sendCommand_recorded _ _ s⟩
  | loadForProgram => cases h; exact ⟨0, sendCommand_recorded _ _ s⟩
  | readFromProgram => cases h; exact ⟨0, sendCommand_recorded _ _ s⟩
  | incrementAddress => cases h; exact ⟨0, sendCommand_recorded _ _ s⟩
  | beginTimedProgram fuseWord => cases h; exact ⟨0, sendCommand_recorded _ _ s⟩
  | bulkErase => cases h; exact ⟨0, sendCommand_recorded _ _ s⟩
  | resetAddress => cases h; exact ⟨0, sendCommand_recorded _ _ s⟩
  | otherCommand cmd d => cases h; exact ⟨0, sendCommand_recorded _ _ s⟩
  | dataOutFrame stop payload => cases h; exact ⟨0, writeData_recorded _ s⟩
  | dataInFrame last payload first => cases h; exact ⟨0, readData_given_recorded _ s⟩
  | keyFrame => cases h; exact ⟨0, shiftKey_recorded s.begin⟩
  | idWord ignored deviceId deviceRev => cases h; exact ⟨0, resolve_recorded _ s⟩

/-- Settles O40: the added events are the instruction's own list. -/
theorem traceOnlyGrows : Obligations.TraceOnlyGrows := by
  intro i s t h
  obtain ⟨raw, htrace, hpins⟩ := exec_recorded h
  exact ⟨_, htrace, hpins⟩

end Sys2Proof.Machine
end

section
/-! PROOFS. The nine operations behind the twenty-one instructions (R91, R110 to R155), and the rules over
all instructions that are read off them: parameters, flags, events, session, `RES`, Resolved Device,
`STATUS`. -/

namespace Sys2Proof.Machine

/-! ### The operation an instruction runs -/

/-- The operations of the block. The rows of the opcode table differ in the operation they run, in its
operands, and in whether the host is answered. -/
inductive Operation where
  | command (cmd : Code) (postDelay : Nat)
  | dataOut (word : Word)
  | dataIn (given : Option Word)
  | key
  | enter
  | exit
  | deviceId
  | lookup (word : Word)
  | reserved

/-- What an operation does to the machine, but for the response (R112 to R155, R214). -/
def Operation.run : Operation → State → State
  | .command cmd postDelay, s => sendCommand cmd postDelay s
  | .dataOut word, s => writeData word s
  | .dataIn given, s => readData given s
  | .key, s => (shiftKey s.begin).finish .ok
  | .enter, s => enterProgramMode s
  | .exit, s => exitProgramMode s
  | .deviceId, s => readDeviceId s
  | .lookup word, s => resolve word s
  | .reserved, s => s.raise .illegalOp

/-- The pin events of an operation; `raw` is the word that samples assemble to where no word is given. -/
def Operation.events (p : Params) (raw : Word) : Operation → List PinEvent
  | .command cmd postDelay => commandEvents p cmd postDelay
  | .dataOut word => dataOutEvents p word
  | .dataIn given => dataInEvents p (given.getD raw)
  | .key => keyEvents p
  | .enter => enterEvents p
  | .exit => exitEvents
  | .deviceId => deviceIdEvents p raw
  | .lookup _ => []
  | .reserved => []

/-- The operation of each instruction (R91, R92, R166). -/
def instrOperation (p : Params) : Instr → Operation
  | .sendcmd cmd d => .command cmd d.toNat
  | .wrdata word => .dataOut word
  | .rddata => .dataIn none
  | .enter => .enter
  | .exit => .exit
  | .rstaddr => .command p.codes.resetAddress p.tDly
  | .incaddr => .command p.codes.incrementAddress p.tDly
  | .rddevid => .deviceId
  | .reservedOp _ => .reserved
  | .loadConfig => .command p.codes.loadConfig p.tDly
  | .loadForProgram => .command p.codes.loadForProgram p.tDly
  | .readFromProgram => .command p.codes.readFromProgram p.tDly
  | .incrementAddress => .command p.codes.incrementAddress p.tDly
  | .beginTimedProgram fuseWord => .command p.codes.beginTimedProgram (programDelay p fuseWord)
  | .bulkErase => .command p.codes.bulkErase p.tErase
  | .resetAddress => .command p.codes.resetAddress p.tDly
  | .otherCommand cmd d => .command cmd d.toNat
  | .dataOutFrame stop payload => .dataOut (wordOfFrame stop payload)
  | .dataInFrame last payload first => .dataIn (some (rawOfFrame last payload first))
  | .keyFrame => .key
  | .idWord ignored deviceId deviceRev => .lookup (idWordOf ignored deviceId deviceRev)

/-- Every instruction runs its operation and at most answers the host: what holds after the operation holds
after the instruction, but for the responses. -/
theorem exec_operation {i : Instr} {s t : State} (h : exec i s = .next t) :
    ∃ rs, t = { (instrOperation s.params i).run s with responses := rs } := by
  cases i <;> cases h <;> exact ⟨_, rfl⟩

theorem instrEvents_eq (p : Params) (raw : Word) (i : Instr) :
    instrEvents p raw i = (instrOperation p i).events p raw := by
  cases i <;> rfl

/-- The events an instruction adds are those of its operation. -/
theorem exec_events {i : Instr} {s t : State} (h : exec i s = .next t) :
    ∃ raw, Recorded ((instrOperation s.params i).events s.params raw) s.wire t.wire := by
  obtain ⟨raw, hrec⟩ := exec_recorded h
  exact ⟨raw, instrEvents_eq s.params raw i ▸ hrec⟩

/-! ### Which instructions run an operation -/

section
variable (p : Params) (i : Instr)

theorem operation_eq_enter : instrOperation p i = .enter ↔ i = .enter := by
  cases i <;> simp [instrOperation]

theorem operation_eq_exit : instrOperation p i = .exit ↔ i = .exit := by
  cases i <;> simp [instrOperation]

theorem operation_eq_deviceId : instrOperation p i = .deviceId ↔ i = .rddevid := by
  cases i <;> simp [instrOperation]

theorem operation_eq_reserved : instrOperation p i = .reserved ↔ ∃ op, i = .reservedOp op := by
  cases i <;> simp [instrOperation]

theorem operation_eq_dataIn :
    (∃ g, instrOperation p i = .dataIn g) ↔ i = .rddata ∨ ∃ l w f, i = .dataInFrame l w f := by
  cases i <;> simp [instrOperation]

theorem operation_eq_lookup :
    (∃ w, instrOperation p i = .lookup w) ↔ ∃ x d r, i = .idWord x d r := by
  cases i <;> simp [instrOperation]

end

/-! ### What the operations leave alone -/

/-- All that the key frame does as an operation of its own (R88). -/
theorem keyFrame_eq (s : State) :
    (shiftKey s.begin).finish .ok =
      { s with
        wire := s.wire.emitAll s.params (keyEvents s.params)
        data := { s.data with txw := s.params.key, bitcnt := 32 }
        seq := { s.seq with phase := .idle }
        status := .ok } := by
  rw [shiftKey_eq]
  unfold State.finish State.begin
  dsimp only

/-- The values in which an operation can end `STATUS` (R29, R155, R214). -/
def Operation.outcomes : Operation → List Status
  | .command _ _ => [.ok]
  | .dataOut _ => [.ok]
  | .dataIn _ => [.ok]
  | .key => [.ok]
  | .enter => [.ok]
  | .exit => [.ok]
  | .deviceId => [.ok, .deviceNotRecognized]
  | .lookup _ => [.ok, .deviceNotRecognized]
  | .reserved => [.illegalOp]

/-- What an operation from `s` to `t` leaves as it was, register by register, and how it can end. -/
structure Operation.Frame (op : Operation) (s t : State) : Prop where
  /-- No operation writes a parameter (R33, R238). -/
  params : t.params = s.params
  /-- The session flags are the host's (R30). -/
  flags : t.flags = s.flags
  /-- The session is entered and left by `ENTER` and `EXIT` (R24). -/
  session : op ≠ .enter → op ≠ .exit → t.seq.session = s.seq.session
  /-- `RES` is written by the operations that read (R91). -/
  result : (∀ g, op ≠ .dataIn g) → op ≠ .deviceId → t.data.res = s.data.res
  /-- The Resolved Device and its image are written by the lookup (R28, R31). -/
  device : op ≠ .deviceId → (∀ w, op ≠ .lookup w) →
    t.dev = s.dev ∧ t.imgAlloc = s.imgAlloc ∧ t.image = s.image
  /-- `STATUS` does not depend on what it was (R29). -/
  status : t.status ∈ op.outcomes

theorem resolve_status (w : Word) (s : State) :
    (resolve w s).status ∈ [.ok, .deviceNotRecognized] := by
  rw [resolve_eq]; split <;> simp

theorem deviceIdPointer_session (c : Codes) (k : Nat) (q : Sequencer) :
    (deviceIdPointer c k q).session = q.session := by
  simp only [deviceIdPointer, shadowUpdate_session, pointerAfter_session]

/-- `RDDEVID` ends with `Resolve`; its frames before that write the wire, the data path and the pointer
(R140). -/
theorem readDeviceId_resolve (s : State) :
    ∃ w u, readDeviceId s = resolve w u ∧ u.params = s.params ∧ u.flags = s.flags ∧
      u.seq.session = s.seq.session := by
  rw [readDeviceId_eq]
  exact ⟨_, _, rfl, rfl, rfl, deviceIdPointer_session _ _ _⟩

theorem readDeviceId_operationFrame (s : State) : Operation.deviceId.Frame s (readDeviceId s) := by
  obtain ⟨w, u, heq, huparams, huflags, husession⟩ := readDeviceId_resolve s
  obtain ⟨_, _, hparams, hflags, _, _, hseq⟩ := resolve_frame w u
  rw [heq]
  exact {
    params := hparams.trans huparams
    flags := hflags.trans huflags
    session := fun _ _ => by rw [hseq, husession]
    result := fun _ h => absurd rfl h
    device := fun h _ => absurd rfl h
    status := resolve_status w u }

theorem resolve_operationFrame (w : Word) (s : State) : (Operation.lookup w).Frame s (resolve w s) := by
  obtain ⟨_, hdata, hparams, hflags, _, _, hseq⟩ := resolve_frame w s
  exact {
    params := hparams
    flags := hflags
    session := fun _ _ => by rw [hseq]
    result := fun _ _ => by rw [hdata]
    device := fun _ h => absurd rfl (h w)
    status := resolve_status w s }

/-- Every operation has its frame. -/
theorem run_frame (op : Operation) (s : State) : op.Frame s (op.run s) := by
  cases op with
  | command cmd d =>
    rw [Operation.run, sendCommand_eq]
    exact ⟨rfl, rfl, fun _ _ => shadowUpdate_session _ _ _, fun _ _ => rfl, fun _ _ => ⟨rfl, rfl, rfl⟩, .head _⟩
  | dataOut word =>
    rw [Operation.run, writeData_eq]
    exact ⟨rfl, rfl, fun _ _ => rfl, fun _ _ => rfl, fun _ _ => ⟨rfl, rfl, rfl⟩, .head _⟩
  | dataIn given =>
    rw [Operation.run, readData_eq]
    exact ⟨rfl, rfl, fun _ _ => rfl, fun h => absurd rfl (h given), fun _ _ => ⟨rfl, rfl, rfl⟩, .head _⟩
  | key =>
    rw [Operation.run, keyFrame_eq]
    exact ⟨rfl, rfl, fun _ _ => rfl, fun _ _ => rfl, fun _ _ => ⟨rfl, rfl, rfl⟩, .head _⟩
  | enter =>
    rw [Operation.run, enterProgramMode_eq]
    exact ⟨rfl, rfl, fun h => absurd rfl h, fun _ _ => rfl, fun _ _ => ⟨rfl, rfl, rfl⟩, .head _⟩
  | exit =>
    rw [Operation.run, exitProgramMode_eq]
    exact ⟨rfl, rfl, fun _ h => absurd rfl h, fun _ _ => rfl, fun _ _ => ⟨rfl, rfl, rfl⟩, .head _⟩
  | deviceId => exact readDeviceId_operationFrame s
  | lookup word => exact resolve_operationFrame word s
  | reserved => exact ⟨rfl, rfl, fun _ _ => rfl, fun _ _ => rfl, fun _ _ => ⟨rfl, rfl, rfl⟩, .head _⟩

/-- Every instruction has the frame of its operation: the response is in no part of it. -/
theorem exec_frame {i : Instr} {s t : State} (h : exec i s = .next t) :
    (instrOperation s.params i).Frame s t := by
  obtain ⟨rs, rfl⟩ := exec_operation h
  obtain ⟨hparams, hflags, hsession, hresult, hdevice, hstatus⟩ := run_frame (instrOperation s.params i) s
  exact ⟨hparams, hflags, hsession, hresult, hdevice, hstatus⟩

theorem outcomes_cause {op : Operation} {o : Status} (h : o ∈ op.outcomes) :
    (o = .illegalOp ↔ op = .reserved) ∧
      (o = .deviceNotRecognized → op = .deviceId ∨ ∃ w, op = .lookup w) ∧
      (o = .ok ∨ o = .illegalOp ∨ o = .deviceNotRecognized) := by
  cases op <;> simp only [Operation.outcomes, List.mem_cons, List.not_mem_nil, or_false] at h
  case deviceId => rcases h with rfl | rfl <;> simp
  case lookup w => rcases h with rfl | rfl <;> simp
  all_goals subst h; simp

/-! ### What the operations' events have in common -/

/-- Only `ENTER` and `EXIT` touch MCLR (R220). -/
theorem after_events_mclr {op : Operation} (henter : op ≠ .enter) (hexit : op ≠ .exit) (p : Params)
    (raw : Word) (ps : Pins) : (ps.after (op.events p raw)).mclr = ps.mclr := by
  cases op with
  | command cmd d => rw [Operation.events, after_command]; rfl
  | dataOut word => rw [Operation.events, after_dataOut]; rfl
  | dataIn given => rw [Operation.events, after_dataIn]; rfl
  | key => rw [Operation.events, after_key]; rfl
  | enter => exact absurd rfl henter
  | exit => exact absurd rfl hexit
  | deviceId => rw [Operation.events, deviceIdEvents, after_append, after_prelude, after_dataIn]; rfl
  | lookup word => rfl
  | reserved => rfl

/-- Without its values a list of samples says only how many there were (R27). -/
theorem shiftInEvents_withoutValue (p : Params) (bs : List Bool) :
    (bs.flatMap (shiftInBitEvents p)).map PinEvent.withoutValue =
      (List.replicate bs.length (shiftInBitEvents p false)).flatten := by
  induction bs with
  | nil => rfl
  | cons b bs ih =>
    rw [List.flatMap_cons, List.map_append, ih, List.length_cons, List.replicate_succ, List.flatten_cons]
    rfl

/-- Without its values a data-in frame is the same for every word (R27, R116). -/
theorem dataInEvents_withoutValue (p : Params) (raw raw' : Word) :
    (dataInEvents p raw).map PinEvent.withoutValue = (dataInEvents p raw').map PinEvent.withoutValue := by
  simp only [dataInEvents, shiftInEvents, List.map_append, shiftInEvents_withoutValue, bitsLsbFirst_length]

/-- An operation's events depend on what was sampled in the sampled values only (R27, R144). -/
theorem events_withoutValue (op : Operation) (p : Params) (raw raw' : Word) :
    (op.events p raw).map PinEvent.withoutValue = (op.events p raw').map PinEvent.withoutValue := by
  cases op with
  | dataIn given => exact dataInEvents_withoutValue p _ _
  | deviceId =>
    simp only [Operation.events, deviceIdEvents, List.map_append]
    rw [dataInEvents_withoutValue p raw raw']
  | command cmd d => rfl
  | dataOut word => rfl
  | key => rfl
  | enter => rfl
  | exit => rfl
  | lookup word => rfl
  | reserved => rfl

/-! ### The rules over all instructions -/

/-- Settles O41: both runs make the events of one operation. -/
theorem eventsDoNotDependOnState : Obligations.EventsDoNotDependOnState := by
  intro i s s' t t' hparams h h'
  obtain ⟨raw, htrace, _⟩ := exec_events h
  obtain ⟨raw', htrace', _⟩ := exec_events h'
  rw [hparams] at htrace'
  exact ⟨_, _, htrace, htrace', events_withoutValue _ _ raw raw'⟩

/-- Settles O43: the session by the operation's frame, MCLR by its events. -/
theorem onlyEnterAndExitMoveTheSession : Obligations.OnlyEnterAndExitMoveTheSession := by
  intro i s t h henter hexit
  replace henter := (operation_eq_enter s.params i).not.2 henter
  replace hexit := (operation_eq_exit s.params i).not.2 hexit
  obtain ⟨raw, _, hpins⟩ := exec_events h
  exact ⟨(exec_frame h).session henter hexit, by rw [hpins, after_events_mclr henter hexit]⟩

/-- Settles O44, by the operation's frame. -/
theorem resultAndDeviceHaveTheirWriters : Obligations.ResultAndDeviceHaveTheirWriters := by
  intro i s t h
  refine ⟨fun hread hdevid hframe => ?_, fun hdevid hword => ?_⟩
  · refine (exec_frame h).result (fun g hg => ?_) ((operation_eq_deviceId s.params i).not.2 hdevid)
    rcases (operation_eq_dataIn s.params i).1 ⟨g, hg⟩ with hi | ⟨l, w, f, hi⟩
    · exact hread hi
    · exact hframe l w f hi
  · refine (exec_frame h).device ((operation_eq_deviceId s.params i).not.2 hdevid) fun w hw => ?_
    obtain ⟨x, d, r, hi⟩ := (operation_eq_lookup s.params i).1 ⟨w, hw⟩
    exact hword x d r hi

/-- Settles O46: each operation has its own outcomes. -/
theorem statusHasOneCause : Obligations.StatusHasOneCause := by
  intro i s t h
  rw [← operation_eq_reserved s.params, ← operation_eq_deviceId s.params, ← operation_eq_lookup s.params]
  exact outcomes_cause (exec_frame h).status

end Sys2Proof.Machine
end

section
/-! PROOFS. The step: which of its three alternatives runs, what the reset leaves, and the invariant of the
machine between operations (R20, R35, R230). -/

namespace Sys2Proof.Machine

/-! ### The alternatives of a step -/

theorem step_of_resetPending {s : State} (h : s.resetPending = true) : step s = .next s.blockReset := by
  unfold step; rw [h]

theorem step_of_decode {s : State} {e : Encoded} {es : List Encoded} {i : Instr}
    (hreset : s.resetPending = false) (hrequests : s.requests = e :: es)
    (hdecode : decode s.params e = .ok i) : step s = exec i { s with requests := es } := by
  unfold step
  split
  next htrue => rw [hreset] at htrue; cases htrue
  next => rw [fetch_cons e es s hrequests]; simp only [hdecode]

/-- Settles O6. -/
theorem stepRunsDecodedInstruction : Obligations.StepRunsDecodedInstruction :=
  fun _ => ⟨fun hreset _ _ _ => step_of_decode hreset, step_of_resetPending⟩

/-- Settles O39: of the three alternatives of a step only the reset writes the flags, and none the
parameters. -/
theorem parametersNeverChange : Obligations.ParametersNeverChange := by
  intro s t h
  rcases step_cases h with ⟨hreset, rfl⟩ | ⟨_, _, rfl⟩ | ⟨e, es, i, _, _, _, hexec⟩
  · exact ⟨blockReset_params s, fun hno => by rw [hreset] at hno; cases hno⟩
  · exact ⟨rfl, fun _ => rfl⟩
  · exact ⟨(exec_frame hexec).params, fun _ => (exec_frame hexec).flags⟩

/-! ### Reset -/

theorem reset_eq_blockReset : State.reset = State.reset.blockReset := rfl

/-- Settles O48: the first reset is a block's reset, and a block's reset leaves nothing of the state it
comes to in the registers of R35's table. -/
theorem resetLeavesTheStatedValues : Obligations.ResetLeavesTheStatedValues := by
  intro t ht
  obtain ⟨s, rfl⟩ : ∃ s, t = State.blockReset s :=
    ht.elim (fun h => ⟨State.reset, h.trans reset_eq_blockReset⟩) id
  simp [Pins.reset]

/-! ### The invariant of the machine between operations -/

/-- Pins whose CLK and DATA are outputs at 0 are as a frame leaves them (R112, R114). -/
theorem framed_of_low {ps : Pins} (hclk : ps.clk = ⟨.output, false⟩) (hdata : ps.data = ⟨.output, false⟩) :
    ps.framed = ps := by
  cases ps
  simp_all [Pins.framed]

/-- Such pins are also as a data-in frame leaves them (R116). -/
theorem readPins_of_low {ps : Pins} (hclk : ps.clk = ⟨.output, false⟩) (hdata : ps.data = ⟨.output, false⟩) :
    { ps.clkLow with data := { ps.data with dir := .output } } = ps := by
  cases ps
  simp_all [Pins.clkLow]

theorem after_enter (ps : Pins) (p : Params) :
    ps.after (enterEvents p) = { ps.framed with mclr := ⟨.output, false⟩ } := by
  rw [enterEvents, after_append, after_key]; rfl

theorem after_exit (ps : Pins) :
    ps.after exitEvents = { ps.framed with mclr := { ps.mclr with dir := .input } } := rfl

/-- Unframing shifts a 0 into bit 15 (R87). -/
theorem unframeWord_high (raw : Word) : (unframeWord raw).getLsbD 15 = false := by
  simp [unframeWord]

namespace Inv

variable {s : State}

/-- The requests at the host port and the responses made are in no part of the invariant. -/
theorem withPort (h : Inv s) (es : List Encoded) (rs : List Response) :
    Inv { s with requests := es, responses := rs } := { h with }

/-- Between operations a frame ends with the pins as they were (R112, R114). -/
theorem framed_pins (h : Inv s) : s.wire.pins.framed = s.wire.pins := framed_of_low h.clk h.data

/-- An operation that ends Ok with the pins as they were, in the session it started in, keeps the invariant
when it keeps the clauses of the three registers it writes. -/
theorem afterFrame (h : Inv s) {w : Wire} {d : DataPath} {q : Sequencer} (hpins : w.pins = s.wire.pins)
    (hmemory : w.target.MemWf) (hresult : d.res.getLsbD 15 = false)
    (hsession : q.session = s.seq.session) (hpointer : q.apKnown = true → q.ap.toNat ≤ 0x2007) :
    Inv { s with wire := w, data := d, seq := { q with phase := .idle }, status := .ok } :=
  { h with
    clk := hpins ▸ h.clk
    data := hpins ▸ h.data
    mclrLow := hpins ▸ h.mclrLow
    mclrDriven := fun hq => hpins ▸ h.mclrDriven (hsession ▸ hq)
    mclrReleased := fun hq => hpins ▸ h.mclrReleased (hsession ▸ hq)
    session := hsession ▸ h.session
    phase := rfl
    pointer := hpointer
    status := .inl rfl
    result := hresult
    memory := hmemory }

theorem sendCommand (h : Inv s) (cmd : Code) (d : Nat) : Inv (sendCommand cmd d s) := by
  rw [sendCommand_eq]
  exact h.afterFrame (by rw [wire_emitAll_pins, after_command, h.framed_pins])
    (wire_emitAll_memWf _ h.memory) h.result (shadowUpdate_session _ _ _) (shadowUpdate_pointer _ _ _ h.pointer)

theorem writeData (h : Inv s) (word : Word) : Inv (writeData word s) := by
  rw [writeData_eq]
  exact h.afterFrame (by rw [wire_emitAll_pins, after_dataOut, h.framed_pins])
    (wire_emitAll_memWf _ h.memory) h.result rfl h.pointer

theorem keyFrame (h : Inv s) : Inv ((shiftKey s.begin).finish .ok) := by
  rw [keyFrame_eq]
  exact h.afterFrame (by rw [wire_emitAll_pins, after_key, h.framed_pins])
    (wire_emitAll_memWf _ h.memory) h.result rfl h.pointer

/-- The turn of DATA at the end of a data-in frame restores the pins of the invariant (R116). -/
theorem readData (h : Inv s) (given : Option Word) : Inv (readData given s) := by
  have hpins : (Machine.readData given s).wire.pins = s.wire.pins := by
    rw [(readData_wire given s).2, after_dataIn]
    exact readPins_of_low h.clk h.data
  rw [readData_eq] at hpins ⊢
  exact h.afterFrame hpins
    (wire_emitAll_memWf _ (shiftIn_memWf given _ (wire_emitAll_memWf _ h.memory))) (unframeWord_high _) rfl
    h.pointer

/-- The session that `ENTER` opens drives MCLR low, and the pointer is unknown in it (R130). -/
theorem enterProgramMode (h : Inv s) : Inv (enterProgramMode s) := by
  rw [enterProgramMode_eq]
  have hpins := wire_emitAll_pins (enterEvents s.params) s.params s.wire
  rw [after_enter, h.framed_pins] at hpins
  exact { h with
    clk := by rw [hpins]; exact h.clk
    data := by rw [hpins]; exact h.data
    mclrLow := by rw [hpins]
    mclrDriven := fun _ => by rw [hpins]
    mclrReleased := fun hq => by cases hq
    session := .inr rfl
    phase := rfl
    pointer := fun hq => by cases hq
    status := .inl rfl
    memory := wire_emitAll_memWf _ h.memory }

/-- `EXIT` leaves no session, MCLR released and the pointer unknown (R134). -/
theorem exitProgramMode (h : Inv s) : Inv (exitProgramMode s) := by
  rw [exitProgramMode_eq]
  have hpins := wire_emitAll_pins exitEvents s.params s.wire
  rw [after_exit, h.framed_pins] at hpins
  exact { h with
    clk := by rw [hpins]; exact h.clk
    data := by rw [hpins]; exact h.data
    mclrLow := by rw [hpins]; exact h.mclrLow
    mclrDriven := fun hq => by cases hq
    mclrReleased := fun _ => by rw [hpins]
    session := .inl rfl
    phase := rfl
    pointer := fun hq => by cases hq
    status := .inl rfl
    memory := wire_emitAll_memWf _ h.memory }

theorem reserved (h : Inv s) : Inv (s.raise .illegalOp) :=
  { h with phase := rfl, status := .inr (.inr rfl) }

/-- The lookup leaves a consistent Resolved Device: a row of a well-formed table has a name and a memory
(R150, R154), and without a row all of it is cleared (R155). -/
theorem resolve (h : Inv s) (word : Word) : Inv (resolve word s) := by
  rw [resolve_eq]
  split
  next r hr =>
    obtain ⟨_, htable, _⟩ := h.params
    obtain ⟨hname, hsize, _⟩ := htable r (lookup_mem hr).1
    exact { h with
      phase := rfl
      status := .inl rfl
      deviceName := iff_of_true rfl hname
      deviceSize := iff_of_true rfl hsize
      deviceRev := fun hv => by cases hv
      allocated := fun _ => rfl
      image := image_wf_nil _ }
  next =>
    exact { h with
      phase := rfl
      status := .inr (.inl rfl)
      deviceName := iff_of_false Bool.false_ne_true (not_not_intro rfl)
      deviceSize := iff_of_false Bool.false_ne_true (not_not_intro rfl)
      deviceRev := fun _ => rfl
      allocated := fun hv => by cases hv }

theorem incrementTimes (h : Inv s) (k : Nat) : Inv (incrementTimes k s) := by
  induction k with
  | zero => exact h
  | succ k ih => exact ih.sendCommand _ _

theorem gotoConfig (h : Inv s) (k : Nat) : Inv (gotoConfig k s) :=
  ((h.sendCommand _ _).writeData 0).incrementTimes k

/-- `RDDEVID` is made of operations that keep the invariant (R140). -/
theorem readDeviceId (h : Inv s) : Inv (readDeviceId s) :=
  (((h.gotoConfig _).sendCommand _ _).readData none).resolve _

/-- Every operation keeps the invariant. -/
theorem run (h : Inv s) (op : Operation) : Inv (op.run s) := by
  cases op with
  | command cmd d => exact h.sendCommand cmd d
  | dataOut word => exact h.writeData word
  | dataIn given => exact h.readData given
  | key => exact h.keyFrame
  | enter => exact h.enterProgramMode
  | exit => exact h.exitProgramMode
  | deviceId => exact h.readDeviceId
  | lookup word => exact h.resolve word
  | reserved => exact h.reserved

/-- Every instruction keeps the invariant. -/
theorem exec {i : Instr} {t : State} (h : Inv s) (hexec : exec i s = .next t) : Inv t := by
  obtain ⟨rs, rfl⟩ := exec_operation hexec
  exact (h.run _).withPort _ rs

/-- The block's reset keeps the invariant: the image and the target are as they were, the rest is at the
values of R35. -/
theorem blockReset (h : Inv s) : Inv s.blockReset where
  params := h.params
  clk := rfl
  data := rfl
  mclrLow := rfl
  mclrDriven := fun hq => by cases hq
  mclrReleased := fun _ => rfl
  session := .inl rfl
  phase := rfl
  pointer := fun hq => by cases hq
  status := .inl rfl
  deviceName := by simp
  deviceSize := by simp
  deviceRev := fun _ => rfl
  allocated := fun hv => by cases hv
  image := h.image
  result := by simp
  memory := h.memory

end Inv

/-- Settles O50: each of the three alternatives of a step keeps the invariant. -/
theorem stepKeepsInvariant : Obligations.StepKeepsInvariant := by
  intro s t h hstep
  rcases step_cases hstep with ⟨_, rfl⟩ | ⟨_, _, rfl⟩ | ⟨e, es, i, _, _, _, hexec⟩
  · exact h.blockReset
  · exact h
  · exact (h.withPort es s.responses).exec hexec

end Sys2Proof.Machine
end

section
/-! PROOFS. What the block reads from an oracle with levels queued (R65, R86): one `RDDATA`, one `READINC`,
and the scan of `blankCheck` (R186 to R188). -/

namespace Sys2Proof.Machine

/-! ### Frames in the oracle's queue -/

/-- The target is the oracle and has the levels of at least `n` data-in frames queued (R65). -/
def Target.HasFrames (t : Target) (n : Nat) : Prop := t.ref = none ∧ 16 * n ≤ t.answers.length

/-- The target after the first `n` of its queued frames were sampled. -/
def Target.dropFrames (t : Target) (n : Nat) : Target := { t with answers := t.answers.drop (16 * n) }

theorem dropFrames_dropFrames (t : Target) (m n : Nat) :
    (t.dropFrames m).dropFrames n = t.dropFrames (m + n) := by
  simp [Target.dropFrames, List.drop_drop, Nat.mul_add]

theorem dropFrames_hasFrames {t : Target} {m n : Nat} (h : t.HasFrames (m + n)) :
    (t.dropFrames m).HasFrames n := by
  obtain ⟨href, hlength⟩ := h
  refine ⟨href, ?_⟩
  rw [Target.dropFrames, List.length_drop]
  omega

theorem queuedFrameAt_dropFrames (t : Target) (m j : Nat) :
    queuedFrameAt (t.dropFrames m).answers j = queuedFrameAt t.answers (m + j) := by
  simp [queuedFrameAt, Target.dropFrames, List.drop_drop, Nat.mul_add]

/-- The first queued frame spells the first sixteen levels, the first of them in bit 0 (R57, R86). -/
theorem queuedFrameAt_zero_bit {l : List Level} {j : Nat} (hj : j < 16) (hlength : 16 ≤ l.length) :
    l[j]? = some ((queuedFrameAt l 0).getLsbD j) := by
  rw [queuedFrameAt, getLsbD_ofBits _ _ _ hj, Nat.mul_zero, List.drop_zero, dataBits,
    List.getElem?_take_of_lt hj, List.getElem?_eq_getElem (by omega), Option.getD_some]

/-! ### The operations under the oracle -/

/-! The response to the host is neither on the wire nor in the data path (R91). -/

@[simp] theorem runSendcmd_wire (cmd : Code) (d : Nat) (s : State) :
    (runSendcmd cmd d s).wire = (sendCommand cmd d s).wire := respond_wire _ _

@[simp] theorem runRstaddr_wire (s : State) :
    (runRstaddr s).wire = (resetAddressPointer s).wire := respond_wire _ _

@[simp] theorem runIncaddr_wire (s : State) :
    (runIncaddr s).wire = (incrementAddressPointer s).wire := respond_wire _ _

@[simp] theorem runRddata_wire (s : State) : (runRddata s).wire = (readData none s).wire := respond_wire _ _

@[simp] theorem runRddata_data (s : State) : (runRddata s).data = (readData none s).data := respond_data _ _

/-- A command asks nothing of the oracle (R65). -/
theorem sendCommand_oracle (cmd : Code) (d : Nat) {s : State} (h : s.wire.target.ref = none) :
    (sendCommand cmd d s).wire.target = s.wire.target := by
  rw [sendCommand_eq]; exact wire_emitAll_oracle _ _ _ h

/-- `RDDATA` reads the first queued frame and takes it out of the queue (R65, R116). -/
theorem readData_oracle {s : State} (h : s.wire.target.HasFrames 1) :
    (readData none s).data.rxw = queuedFrameAt s.wire.target.answers 0 ∧
      (readData none s).data.res = unframeWord (queuedFrameAt s.wire.target.answers 0) ∧
      (readData none s).wire.target = s.wire.target.dropFrames 1 := by
  obtain ⟨href, hlength⟩ := h
  obtain ⟨hword, htarget⟩ := readFrame_oracle s.params s.wire href hlength
  rw [readData_eq]
  refine ⟨hword, congrArg unframeWord hword, ?_⟩
  refine (wire_emitAll_oracle _ _ _ ?_).trans htarget
  rw [htarget]; exact href

/-- Settles O12: the samples assemble to the first queued frame. -/
theorem rddataReadsQueuedLevels : Obligations.RddataReadsQueuedLevels := by
  intro s href hlength
  obtain ⟨hrxw, hres, htarget⟩ := readData_oracle (s := s) ⟨href, hlength⟩
  refine ⟨runRddata s, rfl, fun j hj => ?_, ?_, htarget⟩
  · exact (queuedFrameAt_zero_bit hj hlength).trans (congrArg (fun w => some (w.getLsbD j)) hrxw.symm)
  · exact hres.trans (congrArg unframeWord hrxw.symm)

/-! ### `blankCheck` (R188) -/

/-- The masked value of the `j`-th queued frame, as a scan compares it (R186). -/
def scannedWord (answers : List Level) (j : Nat) : Word :=
  unframeWord (queuedFrameAt answers j) &&& payloadMask

theorem scannedWord_dropFrames (t : Target) (m j : Nat) :
    scannedWord (t.dropFrames m).answers j = scannedWord t.answers (m + j) := by
  rw [scannedWord, queuedFrameAt_dropFrames, scannedWord]

/-- read-from-program and `RDDATA` read the first queued frame (R94, R173). -/
theorem readProg_oracle {s : State} (h : s.wire.target.HasFrames 1) :
    maskedResult (readProg s) = scannedWord s.wire.target.answers 0 ∧
      (readProg s).wire.target = s.wire.target.dropFrames 1 := by
  have hsend : (runSendcmd s.params.codes.readFromProgram s.params.tDly s).wire.target = s.wire.target := by
    rw [runSendcmd_wire, sendCommand_oracle _ _ h.1]
  rw [← hsend] at h ⊢
  obtain ⟨_, hres, htarget⟩ := readData_oracle h
  rw [maskedResult, readProg, runRddata_data, runRddata_wire, hres, scannedWord]
  exact ⟨rfl, htarget⟩

/-- `READINC` reads the first queued frame; its increment leaves the queue alone (R186). -/
theorem readInc_oracle {s : State} (h : s.wire.target.HasFrames 1) :
    (readInc s).1 = scannedWord s.wire.target.answers 0 ∧
      (readInc s).2.wire.target = s.wire.target.dropFrames 1 := by
  obtain ⟨hword, htarget⟩ := readProg_oracle h
  refine ⟨hword, ?_⟩
  have href : (readProg s).wire.target.ref = none := by rw [htarget]; exact h.1
  rw [readInc, runIncaddr_wire, incrementAddressPointer, sendCommand_oracle _ _ href, htarget]

/-- A blank word at the head of the queue is passed over. -/
theorem blankScan_of_blank (k a : Nat) {s : State} (h : s.wire.target.HasFrames 1)
    (hblank : scannedWord s.wire.target.answers 0 = payloadMask) :
    blankScan (k + 1) a s = blankScan k (a + 1) (readInc s).2 := by
  rw [blankScan, (readInc_oracle h).1, if_neg (not_not_intro hblank)]

/-- A word at the head of the queue that is not blank ends the scan. -/
theorem blankScan_of_not_blank (k a : Nat) {s : State} (h : s.wire.target.HasFrames 1)
    (hword : scannedWord s.wire.target.answers 0 ≠ payloadMask) :
    blankScan (k + 1) a s =
      (.notBlank (reportAddress a) (scannedWord s.wire.target.answers 0), (readInc s).2) := by
  rw [blankScan, (readInc_oracle h).1, if_pos hword]

/-- Blank words are passed over one by one: after `n` of them the scan goes on `n` words further. -/
theorem blankScan_pass (n k a : Nat) {s : State} (h : s.wire.target.HasFrames (n + k))
    (hblank : ∀ j, j < n → scannedWord s.wire.target.answers j = payloadMask) :
    ∃ t, t.wire.target = s.wire.target.dropFrames n ∧ blankScan (n + k) a s = blankScan k (a + n) t := by
  induction n generalizing a s with
  | zero => exact ⟨s, rfl, by rw [Nat.zero_add, Nat.add_zero]⟩
  | succ n ih =>
    rw [Nat.add_right_comm] at h ⊢
    have hone : s.wire.target.HasFrames 1 := ⟨h.1, by have := h.2; omega⟩
    have hnext := (readInc_oracle hone).2
    obtain ⟨t, htarget, hscan⟩ := ih (a + 1) (s := (readInc s).2)
      (hnext ▸ dropFrames_hasFrames (Nat.add_comm 1 _ ▸ h))
      fun j hj => by rw [hnext, scannedWord_dropFrames]; exact hblank _ (by omega)
    refine ⟨t, ?_, ?_⟩
    · rw [htarget, hnext, dropFrames_dropFrames, Nat.add_comm]
    · rw [blankScan_of_blank _ _ hone (hblank 0 (Nat.succ_pos n)), hscan, Nat.add_assoc, Nat.add_comm 1]

/-- The scan of `n` blank words succeeds. -/
theorem blankScan_success (n : Nat) {s : State} (h : s.wire.target.HasFrames n)
    (hblank : ∀ j, j < n → scannedWord s.wire.target.answers j = payloadMask) :
    (blankScan n 0 s).1 = .success := by
  obtain ⟨t, _, hscan⟩ := blankScan_pass n 0 0 h hblank
  rw [← Nat.add_zero n, hscan, blankScan]

/-- The scan ends at the first word that is not blank, and has read no further. -/
theorem blankScan_notBlank {n a : Nat} (ha : a < n) {s : State} (h : s.wire.target.HasFrames n)
    (hblank : ∀ j, j < a → scannedWord s.wire.target.answers j = payloadMask)
    (hword : scannedWord s.wire.target.answers a ≠ payloadMask) :
    (blankScan n 0 s).1 = .notBlank (reportAddress a) (scannedWord s.wire.target.answers a) ∧
      (blankScan n 0 s).2.wire.target = s.wire.target.dropFrames (a + 1) := by
  obtain ⟨k, rfl⟩ : ∃ k, n = a + (k + 1) := ⟨n - a - 1, by omega⟩
  obtain ⟨t, htarget, hscan⟩ := blankScan_pass a (k + 1) 0 h hblank
  have hone : t.wire.target.HasFrames 1 :=
    htarget ▸ dropFrames_hasFrames ⟨h.1, by have := h.2; omega⟩
  have hhead : scannedWord t.wire.target.answers 0 = scannedWord s.wire.target.answers a := by
    rw [htarget, scannedWord_dropFrames, Nat.add_zero]
  rw [hscan, blankScan_of_not_blank k _ hone (hhead ▸ hword), hhead, Nat.zero_add]
  exact ⟨rfl, by rw [(readInc_oracle hone).2, htarget, dropFrames_dropFrames]⟩

/-- Settles O54: `RSTADDR` leaves the queue to the scan. -/
theorem blankCheckFindsFirstProgrammedWord : Obligations.BlankCheckFindsFirstProgrammedWord := by
  intro s href hlength
  have hstart : (runRstaddr s).wire.target = s.wire.target := by
    rw [runRstaddr_wire, resetAddressPointer, sendCommand_oracle _ _ href]
  have hframes : (runRstaddr s).wire.target.HasFrames s.dev.size.toNat := by
    rw [hstart]; exact ⟨href, hlength⟩
  rw [blankCheck, ← hstart]
  refine ⟨fun hblank => blankScan_success _ hframes hblank, fun a ha hblank hword => ?_⟩
  obtain ⟨hresult, htarget⟩ := blankScan_notBlank ha hframes hblank hword
  exact ⟨hresult, congrArg Target.answers htarget⟩

end Sys2Proof.Machine
end

section
/-! PROOFS. What the frames of the block mean to the reference target (R70 to R76): what it makes of its
memory, of a whole command and of a whole data frame, and then each operation of the block against it. -/

namespace Sys2Proof.Machine

/-! ### The memory of the reference target -/

/-- A read after a write, inside the target's memory or past it (R70, log entry 14). -/
theorem memory_read_write_any (m : Memory) (a b : Nat) (v : Payload) :
    (m.write a v).read b = if a = b ∧ a ≤ fuseAddr then v else m.read b := by
  by_cases ha : a ≤ fuseAddr
  · simp only [memory_read_write m a b v ha, ha, and_true]
  · rw [Memory.write, if_pos (Nat.lt_of_not_le ha), if_neg fun h => ha h.2]

theorem find_filter_of_kept {w : Nat} (m : Sparse w) (f : Nat × BitVec w → Bool) {a : Nat}
    (h : ∀ v, f (a, v) = true) : Sparse.find (m.filter f) a = Sparse.find m a := by
  induction m with
  | nil => rfl
  | cons c m ih =>
    obtain ⟨b, v⟩ := c
    rw [List.filter_cons, Sparse.find]
    by_cases hb : b = a
    · subst hb
      rw [if_pos (h v), Sparse.find, if_pos rfl, if_pos rfl]
    · rw [if_neg hb, ← ih]
      split
      · rw [Sparse.find, if_neg hb]
      · rfl

/-- A bulk erase blanks the code words and the fuse word and no other (R76). -/
theorem memory_read_bulkErase_any (m : Memory) (a : Nat) :
    m.bulkErase.read a = if a < 0x2000 ∨ a = fuseAddr then blank else m.read a := by
  split
  next ha => exact memory_read_bulkErase m a ha
  next ha =>
    obtain ⟨hcode, hfuse⟩ := not_or.1 ha
    rw [Memory.read, Memory.bulkErase, find_filter_of_kept, Memory.read]
    intro v
    simp only [Bool.and_eq_true, decide_eq_true_eq]
    exact ⟨by omega, hfuse⟩

/-! ### begin-timed-program (R75) -/

/-- The latch of an address: its place in its row of sixteen words (R74). -/
def latchIndex (a : Nat) : Fin 16 := ⟨a % 16, Nat.mod_lt _ (by decide)⟩

/-- begin-timed-program reaches the word at an address: it is in the target's memory and in the pointer's
row, and its latch is loaded (R75, log entry 14). -/
def RefTarget.programs (t : RefTarget) (a : Nat) : Bool :=
  decide (a ≤ fuseAddr) && decide (a / 16 = t.pc.toNat / 16) && t.loaded.getLsbD (latchIndex a)

theorem programs_iff {t : RefTarget} {a : Nat} : t.programs a = true ↔
    a ≤ fuseAddr ∧ a / 16 = t.pc.toNat / 16 ∧ t.loaded.getLsbD (latchIndex a) = true := by
  simp [RefTarget.programs, and_assoc]

/-- Programming latch `j` of the row reaches one address at most. -/
theorem programWord_read (t : RefTarget) (m : Memory) (j : Fin 16) (a : Nat) :
    (t.programWord m j).read a =
      if j = latchIndex a ∧ t.programs a then m.read a &&& t.latch[latchIndex a] else m.read a := by
  have haddress : t.pc.toNat - t.pc.toNat % 16 + j.val = a ↔
      j = latchIndex a ∧ a / 16 = t.pc.toNat / 16 := by
    rw [Fin.ext_iff, latchIndex]
    have := j.isLt
    dsimp only
    omega
  rw [RefTarget.programWord]
  split
  next hloaded =>
    rw [memory_read_write_any]
    by_cases ha : t.pc.toNat - t.pc.toNat % 16 + j.val = a
    · obtain ⟨rfl, hrow⟩ := haddress.1 ha
      have hreached : t.programs a = true ↔ a ≤ fuseAddr := by
        rw [programs_iff]
        exact ⟨fun h => h.1, fun h => ⟨h, hrow, hloaded⟩⟩
      simp only [ha, hreached, true_and]
      rfl
    · rw [if_neg fun h => ha h.1, if_neg]
      rintro ⟨hj, hreached⟩
      obtain ⟨_, hrow, _⟩ := programs_iff.1 hreached
      exact ha (haddress.2 ⟨hj, hrow⟩)
  next hloaded =>
    rw [if_neg]
    rintro ⟨rfl, hreached⟩
    obtain ⟨_, _, h⟩ := programs_iff.1 hreached
    exact hloaded h

/-- Programming latches in turn reaches the addresses of all of them; a latch twice is as good as once,
because a word only loses bits (R75). -/
theorem foldl_programWord_read (t : RefTarget) (js : List (Fin 16)) (m : Memory) (a : Nat) :
    (js.foldl t.programWord m).read a =
      if latchIndex a ∈ js ∧ t.programs a then m.read a &&& t.latch[latchIndex a] else m.read a := by
  induction js generalizing m with
  | nil => simp
  | cons j js ih =>
    rw [List.foldl_cons, ih, programWord_read]
    by_cases hj : latchIndex a = j
    · by_cases hp : t.programs a <;> simp [hj, hp, BitVec.and_assoc]
    · simp [hj, Ne.symm hj]

/-- begin-timed-program reaches every loaded word of the pointer's row (R75). -/
theorem programRow_read (t : RefTarget) (a : Nat) :
    t.programRow.mem.read a =
      if t.programs a then t.mem.read a &&& t.latch[latchIndex a] else t.mem.read a := by
  rw [RefTarget.programRow, foldl_programWord_read]
  simp only [List.mem_finRange, true_and]

/-! ### A whole command (R72 to R76)

The target tries the seven codes in turn; when they are different each code has its own reaction (R83). -/

section
variable {c : Codes} (r : RefTarget)

theorem command_resetAddress : r.command c c.resetAddress = { r with phase := .command [], pc := 0 } := by
  rw [RefTarget.command, if_pos rfl]

theorem command_incrementAddress (hc : c.Distinct) :
    r.command c c.incrementAddress = { r with phase := .command [], pc := r.pc + 1 } := by
  grind [RefTarget.command, Codes.toList]

theorem command_loadConfig (hc : c.Distinct) :
    r.command c c.loadConfig = { r with phase := .dataOut true [] } := by
  grind [RefTarget.command, Codes.toList]

theorem command_loadForProgram (hc : c.Distinct) :
    r.command c c.loadForProgram = { r with phase := .dataOut false [] } := by
  grind [RefTarget.command, Codes.toList]

theorem command_readFromProgram (hc : c.Distinct) :
    r.command c c.readFromProgram = { r with phase := .dataIn r.readFrame 0 } := by
  grind [RefTarget.command, RefTarget.readFrame, Codes.toList]

theorem command_beginTimedProgram (hc : c.Distinct) :
    r.command c c.beginTimedProgram = { r with phase := .command [] }.programRow := by
  grind [RefTarget.command, Codes.toList]

theorem command_bulkErase (hc : c.Distinct) :
    r.command c c.bulkErase = { r with phase := .command [], mem := r.mem.bulkErase, loaded := 0 } := by
  grind [RefTarget.command, Codes.toList]

theorem command_other {code : Code} (h : code ∉ c.toList) :
    r.command c code = { r with phase := .command [] } := by
  grind [RefTarget.command, Codes.toList]

/-- Only two commands touch the target's memory (R75, R76). -/
theorem command_mem {code : Code} (hprogram : code ≠ c.beginTimedProgram) (herase : code ≠ c.bulkErase) :
    (r.command c code).mem = r.mem := by
  grind [RefTarget.command]

end

/-! ### A whole data-out frame (R72, R74) -/

theorem dataFrame_config (r : RefTarget) (f : Word) :
    r.dataFrame true f = { r with phase := .command [], pc := configBase } := rfl

theorem dataFrame_load (r : RefTarget) (f : Word) :
    r.dataFrame false f = { r with phase := .command [] }.loadLatch f := rfl

/-- The payload of a frame goes to the latch of the pointer's row offset (R74). -/
theorem loadLatch_latch (r : RefTarget) (f : Word) {j : Nat} (hj : j < 16) :
    (r.loadLatch f).latch[j] = if j = r.pc.toNat % 16 then f.extractLsb' 1 14 else r.latch[j] := by
  rw [RefTarget.loadLatch, Vector.getElem_set]
  simp only [eq_comm]

/-- That latch counts as loaded (R74). -/
theorem loadLatch_loaded (r : RefTarget) (f : Word) {j : Nat} (hj : j < 16) :
    (r.loadLatch f).loaded.getLsbD j = (decide (j = r.pc.toNat % 16) || r.loaded.getLsbD j) := by
  rw [RefTarget.loadLatch, BitVec.getLsbD_or, Bool.or_comm]
  congr 1
  rw [Bool.eq_iff_iff]
  simp [hj]
  omega

/-- The payload slots of a data-out frame are the low fourteen bits of its word (R84, R85). -/
theorem frameWord_payload (word : Word) : (frameWord word).extractLsb' 1 14 = word.extractLsb' 0 14 := by
  refine BitVec.eq_of_getLsbD_eq fun i hi => ?_
  have hslot : 1 + i < 16 := by omega
  simp only [frameWord, BitVec.getLsbD_extractLsb', BitVec.getLsbD_shiftLeft]
  simp only [hi, hslot, Nat.add_sub_cancel_left, Nat.zero_add]
  simp

/-- The target's data-in frame is the word at its pointer between two 0 slots (R73, R87). -/
theorem unframeWord_readFrame (r : RefTarget) :
    unframeWord r.readFrame = 0#2 ++ r.mem.read r.pc.toNat := by
  refine BitVec.eq_of_getLsbD_eq fun i hi => ?_
  simp only [unframeWord, RefTarget.readFrame, BitVec.getLsbD_ushiftRight, BitVec.getLsbD_append]
  simp

/-! ### Collecting the bits of a frame (R70) -/

/-- A target that collects bits and acts on the `n`-th acts on a whole frame of `n` bits: the one induction
behind command, data-out and key frames. -/
theorem clockFalls_frame {p : Params} {n : Nat} {collecting done : List Bool → RefTarget}
    (hstep : ∀ bs b, (collecting bs).clockFall p b =
      if bs.length + 1 = n then done (bs ++ [b]) else collecting (bs ++ [b]))
    (bs : List Bool) (hlength : bs.length = n) (hn : 0 < n) :
    bs.foldl (fun r b => r.clockFall p b) (collecting []) = done bs := by
  suffices ∀ rest seen, rest ≠ [] → seen.length + rest.length = n →
      rest.foldl (fun r b => r.clockFall p b) (collecting seen) = done (seen ++ rest) from
    this bs [] (List.ne_nil_of_length_pos (hlength ▸ hn)) (by rw [List.length_nil, Nat.zero_add, hlength])
  intro rest
  induction rest with
  | nil => exact fun _ h => absurd rfl h
  | cons b rest ih =>
    intro seen _ hn
    rw [List.foldl_cons, hstep]
    cases rest with
    | nil =>
      rw [List.length_singleton] at hn
      rw [if_pos hn, List.foldl_nil]
    | cons b' rest =>
      rw [List.length_cons, List.length_cons] at hn
      rw [if_neg (by omega), ih _ (by simp) (by simp; omega), List.append_assoc, List.singleton_append]

theorem ofBitsLsbFirst_bitsLsbFirst {w : Nat} (v : BitVec w) : ofBitsLsbFirst w (bitsLsbFirst v w) = v := by
  refine BitVec.eq_of_getLsbD_eq fun i hi => ?_
  rw [getLsbD_ofBits _ _ _ hi]
  simp [bitsLsbFirst, hi]

/-- The six bits of a code are received as that code (R70, R82). -/
theorem clockFalls_command (p : Params) {r : RefTarget} (cmd : Code) (hphase : r.phase = .command []) :
    (bitsLsbFirst cmd cmdBits).foldl (fun r b => r.clockFall p b) r = r.command p.codes cmd := by
  have hframe := clockFalls_frame (p := p) (n := cmdBits)
    (collecting := fun bs => { r with phase := .command bs })
    (done := fun bs => r.command p.codes (ofBitsLsbFirst 6 bs)) (fun _ _ => rfl)
    (bitsLsbFirst cmd cmdBits) (bitsLsbFirst_length _ _) (by decide)
  rw [← hphase] at hframe
  exact hframe.trans (congrArg _ (ofBitsLsbFirst_bitsLsbFirst cmd))

/-- The sixteen bits of a data-out frame are received as that frame (R70, R84). -/
theorem clockFalls_dataOut (p : Params) {r : RefTarget} {config : Bool} (f : Word)
    (hphase : r.phase = .dataOut config []) :
    (bitsLsbFirst f dataBits).foldl (fun r b => r.clockFall p b) r = r.dataFrame config f := by
  have hframe := clockFalls_frame (p := p) (n := dataBits)
    (collecting := fun bs => { r with phase := .dataOut config bs })
    (done := fun bs => r.dataFrame config (ofBitsLsbFirst 16 bs)) (fun _ _ => rfl)
    (bitsLsbFirst f dataBits) (bitsLsbFirst_length _ _) (by decide)
  rw [← hphase] at hframe
  exact hframe.trans (congrArg _ (ofBitsLsbFirst_bitsLsbFirst f))

/-- The key and one more pulse bring the target into programming mode (R71, R88). -/
theorem clockFalls_key (p : Params) {r : RefTarget} (hphase : r.phase = .keyPulses []) :
    (bitsLsbFirst p.key keyBits ++ [false]).foldl (fun r b => r.clockFall p b) r =
      { r with phase := .command [], pc := 0, loaded := 0 } := by
  have hframe := clockFalls_frame (p := p) (n := keyBits + 1)
    (collecting := fun bs => { r with phase := .keyPulses bs })
    (done := fun bs => r.keyReceived p.key bs) (fun _ _ => rfl)
    (bitsLsbFirst p.key keyBits ++ [false]) (by simp [bitsLsbFirst_length]) (by decide)
  rw [← hphase] at hframe
  refine hframe.trans ?_
  rw [RefTarget.keyReceived, List.take_left' (bitsLsbFirst_length _ _), if_pos rfl]

/-! ### The block's frames on the wires of the target -/

/-- The target counts clock edges and the block drives DATA, so that every pulse carries a bit (R70). -/
def Wire.Feeding (w : Wire) (r : RefTarget) : Prop := w.Listening r ∧ w.pins.data.dir = .output

theorem feeding_of_pins {w : Wire} {r : RefTarget} (href : w.target.ref = some r)
    (hphase : r.phase ≠ .mclrHigh)
    (hpins : w.pins = ⟨⟨.output, false⟩, ⟨.output, false⟩, ⟨.output, false⟩⟩) : w.Feeding r :=
  ⟨⟨href, hphase, by rw [hpins]; rfl, by rw [hpins]⟩, by rw [hpins]⟩

theorem Wire.Listening.driveData {p : Params} {w : Wire} {r : RefTarget} (h : w.Listening r) :
    (w.emit p (.dir .data .output)).Feeding r :=
  ⟨(emit_quiet p h (.dir .data .output) rfl rfl (clockFalls_same rfl)).1, rfl⟩

namespace Wire.Feeding

variable {p : Params} {w : Wire} {r : RefTarget}

theorem ref (h : w.Feeding r) : w.target.ref = some r := h.1.1

theorem delay (h : w.Feeding r) (d : Nat) : (w.emit p (.delay d)).Feeding r :=
  ⟨(emit_quiet p h.1 (.delay d) rfl rfl (clockFalls_same rfl)).1, h.2⟩

theorem setData (h : w.Feeding r) (b : Level) : (w.emit p (.set .data b)).Feeding r :=
  ⟨(emit_quiet p h.1 (.set .data b) rfl rfl (clockFalls_same rfl)).1, h.2⟩

theorem bits (h : w.Feeding r) (bs : List Bool) :
    (w.emitAll p (bs.flatMap (shiftOutBit p))).Feeding (bs.foldl (fun r b => r.clockFall p b) r) :=
  shiftOut_target p bs h.1 h.2

/-- A command frame is received as its code (R70, R112). -/
theorem commandEvents (h : w.Feeding r) (hphase : r.phase = .command []) (cmd : Code) (d : Nat) :
    (w.emitAll p (commandEvents p cmd d)).Feeding (r.command p.codes cmd) := by
  rw [Machine.commandEvents, wire_emitAll_append, ← clockFalls_command p cmd hphase]
  exact ((h.bits _).setData false).delay d

/-- A data-out frame is received as the framing of its word (R70, R114). -/
theorem dataOutEvents (h : w.Feeding r) {config : Bool} (hphase : r.phase = .dataOut config [])
    (word : Word) :
    (w.emitAll p (dataOutEvents p word)).Feeding (r.dataFrame config (frameWord word)) := by
  rw [Machine.dataOutEvents, wire_emitAll_append, ← clockFalls_dataOut p (frameWord word) hphase]
  exact (h.bits _).setData false

/-- The key frame brings the target into programming mode (R71, R88). -/
theorem keyEvents (h : w.Feeding r) (hphase : r.phase = .keyPulses []) :
    (w.emitAll p (keyEvents p)).Feeding { r with phase := .command [], pc := 0, loaded := 0 } := by
  have hkey : Machine.keyEvents p = (bitsLsbFirst p.key keyBits ++ [false]).flatMap (shiftOutBit p) := by
    rw [Machine.keyEvents, shiftOutBits, List.flatMap_append, List.flatMap_singleton]
  rw [hkey, ← clockFalls_key p hphase]
  exact h.bits _

/-- A data-in frame reads the frame the target drives, which then waits for a command (R73, R116). -/
theorem readFrame (h : w.Feeding r) {f : Word} (hphase : r.phase = .dataIn f 0) :
    (Wire.readFrame p none w).1 = f ∧
      (Wire.readFrame p none w).2.Listening { r with phase := .command [] } := by
  have hreleased := (emit_quiet p h.1 (.dir .data .input) rfl rfl (clockFalls_same rfl)).1
  obtain ⟨hbits, hlistening⟩ := shiftIn_target p r f hphase _ hreleased rfl 16 le_rfl
  rw [if_pos rfl] at hlistening
  exact ⟨BitVec.eq_of_getLsbD_eq hbits, hlistening⟩

end Wire.Feeding

/-- MCLR moves the target only between its phases (R71). -/
theorem seeMclr_eq (r : RefTarget) (l : Option Level) :
    ∃ phase, r.seeMclr l = { r with phase := phase } := by
  unfold RefTarget.seeMclr
  split
  · exact ⟨_, rfl⟩
  · exact ⟨_, rfl⟩
  · split <;> exact ⟨_, rfl⟩

/-- MCLR high and then low makes the target wait for the key, wherever it stood (R71, R130). -/
theorem entryPulse_feeding (p : Params) {w : Wire} {r : RefTarget} (href : w.target.ref = some r)
    (hclk : w.pins.clk.dir = .output) (hdata : w.pins.data.dir = .output) (high low : Nat) :
    (w.emitAll p [.dir .mclr .output, .set .mclr true, .delay high, .set .mclr false, .delay low]).Feeding
      { r with phase := .keyPulses [] } := by
  obtain ⟨phase, hdriven⟩ := seeMclr_eq r ((w.pins.apply (.dir .mclr .output)).mclr.driven)
  have h1 := emit_mclr p href (.dir .mclr .output) rfl
  rw [hdriven] at h1
  have h2 := emit_mclr p h1 (.set .mclr true) rfl
  have h3 := emit_mclr p h2 (.delay high) rfl
  have h4 := emit_mclr p h3 (.set .mclr false) rfl
  have hfeeding : Wire.Feeding _ { r with phase := .keyPulses [] } := ⟨⟨h4, by simp, rfl, hclk⟩, hdata⟩
  exact hfeeding.delay low

/-! ### The operations against the target -/

/-- `SENDCMD` against a target at the start of a command (R70, R112). -/
theorem sendCommand_feeding {s : State} {r : RefTarget} (h : s.wire.Feeding r)
    (hphase : r.phase = .command []) (cmd : Code) (d : Nat) :
    (sendCommand cmd d s).wire.Feeding (r.command s.params.codes cmd) := by
  rw [sendCommand_eq]; exact h.commandEvents hphase cmd d

/-- `WRDATA` against a target that waits for a data-out frame (R70, R114). -/
theorem writeData_feeding {s : State} {r : RefTarget} {config : Bool} (h : s.wire.Feeding r)
    (hphase : r.phase = .dataOut config []) (word : Word) :
    (writeData word s).wire.Feeding (r.dataFrame config (frameWord word)) := by
  rw [writeData_eq]; exact h.dataOutEvents hphase word

/-- `ENTER` against a target anywhere in its frames (R71, R130). -/
theorem enterProgramMode_feeding {s : State} {r : RefTarget} (href : s.wire.target.ref = some r)
    (hclk : s.wire.pins.clk.dir = .output) (hdata : s.wire.pins.data.dir = .output) :
    (enterProgramMode s).wire.Feeding { r with phase := .command [], pc := 0, loaded := 0 } := by
  rw [enterProgramMode_eq]
  dsimp only
  rw [enterEvents, wire_emitAll_append]
  exact (entryPulse_feeding s.params href hclk hdata _ _).keyEvents rfl

/-- `EXIT` from a low clock takes the target out of programming mode: the clock does not fall, and MCLR is
released at the end (R71, R134). -/
theorem exitProgramMode_ref {s : State} {r : RefTarget} (href : s.wire.target.ref = some r)
    (hclk : s.wire.pins.clk.lvl = false) :
    (exitProgramMode s).wire.target.ref = some { r with phase := .off } := by
  have hsame : (s.wire.pins.apply (.set .clk false)).clk = s.wire.pins.clk := by
    rw [Pins.apply, Pins.put, Pins.get, ← hclk]
  have h1 := emit_mclr s.params href (.set .clk false) hsame
  have h2 := emit_mclr s.params h1 (.set .data false) rfl
  have h3 := emit_mclr s.params h2 (.dir .mclr .input) rfl
  obtain ⟨phase1, hr1⟩ := seeMclr_eq r ((s.wire.pins.apply (.set .clk false)).mclr.driven)
  rw [hr1] at h3
  obtain ⟨phase2, hr2⟩ := seeMclr_eq { r with phase := phase1 }
    (((s.wire.pins.apply (.set .clk false)).apply (.set .data false)).mclr.driven)
  rw [emit_pins, hr2] at h3
  exact h3

/-- `RDDATA` against a target that drives a frame reads that frame (R73, R116). -/
theorem readData_feeding {s : State} {r : RefTarget} {f : Word} (h : s.wire.Feeding r)
    (hphase : r.phase = .dataIn f 0) :
    (readData none s).data.res = unframeWord f ∧
      (readData none s).wire.Feeding { r with phase := .command [] } := by
  obtain ⟨hword, hlistening⟩ := h.readFrame (p := s.params) hphase
  rw [readData_eq]
  exact ⟨congrArg unframeWord hword, hlistening.driveData⟩

/-! ### The obligations about the target -/

/-- Settles O56: the frame delivers the code, and the clauses are the target's commands. -/
theorem targetReceivesCommand : Obligations.TargetReceivesCommand := by
  intro s r cmd d hc href hphase hpins
  have hfeeding := feeding_of_pins href (by simp [hphase]) hpins
  have hsame : { r with phase := .command [] } = r := by rw [← hphase]
  refine ⟨runSendcmd cmd d.toNat s, r.command s.params.codes cmd, rfl, ?_, ?_, ?_, ?_, ?_, ?_, ?_, ?_⟩
  · rw [runSendcmd_wire]; exact (sendCommand_feeding hfeeding hphase cmd d.toNat).ref
  · rintro rfl; rw [command_resetAddress, ← hphase]
  · rintro rfl; rw [command_incrementAddress r hc, ← hphase]
  · rintro rfl; exact command_loadConfig r hc
  · rintro rfl; exact command_loadForProgram r hc
  · rintro rfl
    rw [command_bulkErase r hc]
    exact ⟨rfl, rfl, memory_read_bulkErase_any r.mem⟩
  · intro hother; rw [command_other r hother, hsame]
  · exact command_mem r

/-- Settles O57: MCLR high and low is an entry from anywhere, and its release an exit. -/
theorem targetFollowsEntryAndExit : Obligations.TargetFollowsEntryAndExit := by
  intro s r href
  refine ⟨fun hclk hdata => ?_, fun hclk => ?_, fun hreset => ?_⟩
  · exact ⟨runEnter s, _, rfl, (enterProgramMode_feeding href hclk hdata).ref, rfl, rfl, rfl, rfl, rfl⟩
  · exact ⟨runExit s, _, rfl, exitProgramMode_ref href hclk, rfl, rfl⟩
  · exact ⟨s.blockReset, step_of_resetPending hreset, href, rfl⟩

/-- Settles O58: read-from-program makes the target drive its word, and the frame ends where the command
began. -/
theorem targetAnswersRead : Obligations.TargetAnswersRead := by
  intro s t u r d hc href hphase hpins hsend hread
  cases hsend
  cases hread
  have hfeeding := sendCommand_feeding (feeding_of_pins href (by simp [hphase]) hpins) hphase
    s.params.codes.readFromProgram d.toNat
  rw [command_readFromProgram r hc, ← runSendcmd_wire] at hfeeding
  obtain ⟨hres, hafter⟩ := readData_feeding hfeeding rfl
  rw [runRddata_data, runRddata_wire, hres, unframeWord_readFrame, hafter.ref, ← hphase]
  exact ⟨rfl, rfl⟩

/-- Settles O59: the frame delivers the word, and the clauses are the target's two loads. -/
theorem targetTakesDataFrame : Obligations.TargetTakesDataFrame := by
  intro s r config word href hphase hpins
  have hfeeding := writeData_feeding (feeding_of_pins href (by simp [hphase]) hpins) hphase word
  refine ⟨runWrdata word s, _, rfl, hfeeding.ref, ?_⟩
  cases config with
  | true =>
    rw [dataFrame_config]
    exact ⟨rfl, rfl, fun _ => ⟨rfl, rfl, rfl⟩, fun h => absurd h (by simp)⟩
  | false =>
    rw [dataFrame_load]
    refine ⟨rfl, rfl, fun h => absurd h (by simp), fun _ => ⟨rfl, fun j hj => ⟨?_, ?_⟩⟩⟩
    · rw [loadLatch_latch _ _ hj, frameWord_payload]
    · exact loadLatch_loaded _ _ hj

/-- Settles O60: the command is the target's `programRow`, whatever the delay after it. -/
theorem targetProgramsLoadedRow : Obligations.TargetProgramsLoadedRow := by
  intro s r fuseWord hc href hphase hpins
  have hfeeding := sendCommand_feeding (feeding_of_pins href (by simp [hphase]) hpins) hphase
    s.params.codes.beginTimedProgram (programDelay s.params fuseWord)
  rw [command_beginTimedProgram r hc, ← hphase] at hfeeding
  refine ⟨_, r.programRow, rfl, hfeeding.ref, rfl, rfl, rfl, fun a => ?_⟩
  rw [programRow_read]
  exact if_congr programs_iff rfl rfl

end Sys2Proof.Machine
end

section
/-! PROOFS. The encodings (R80 to R95): the fields of each format, and the decoder and the encoder as each
other's inverse. -/

namespace Sys2Proof.Machine

/-! ### The fields of the host request (R91, R95) -/

section
variable (op : BitVec 4) (arg : Word) (dly : BitVec 32)

@[simp] theorem hostOp_hostRequest : hostOp (hostRequest op arg dly) = op := by
  rw [hostOp, hostRequest, BitVec.extractLsb'_append_eq_of_le (by decide)]
  exact BitVec.extractLsb'_append_eq_left

@[simp] theorem hostArg_hostRequest : hostArg (hostRequest op arg dly) = arg := by
  rw [hostArg, hostRequest, BitVec.extractLsb'_append_eq_of_le (by decide)]
  exact BitVec.extractLsb'_append_eq_right

/-- `ARG[15:6]` does not reach the code (R91). -/
@[simp] theorem hostCmd_hostRequest : hostCmd (hostRequest op arg dly) = arg.extractLsb' 0 6 := by
  rw [hostCmd, hostRequest, BitVec.extractLsb'_append_eq_of_le (by decide)]
  exact BitVec.extractLsb'_append_eq_of_add_le (by decide)

@[simp] theorem hostDly_hostRequest : hostDly (hostRequest op arg dly) = dly :=
  BitVec.extractLsb'_append_eq_right

end

/-! ### The operation select (R91, R92) -/

theorem decodeHostop_sendcmd (arg : Word) (dly : BitVec 32) :
    decodeHostop (hostRequest 0 arg dly) = .sendcmd (arg.extractLsb' 0 6) dly := by
  simp [decodeHostop]

theorem decodeHostop_wrdata (arg : Word) (dly : BitVec 32) :
    decodeHostop (hostRequest 1 arg dly) = .wrdata arg := by
  simp [decodeHostop]

theorem decodeHostop_reserved {w : BitVec 52} (h : 8#4 ≤ hostOp w) :
    decodeHostop w = .reservedOp (hostOp w) := by
  rw [BitVec.le_def] at h
  unfold decodeHostop
  split
  case h_9 => rfl
  all_goals next hop => rw [hop] at h; contradiction

theorem decodeHostop_wellFormed (c : Codes) (w : BitVec 52) : (decodeHostop w).wellFormed c = true := by
  unfold decodeHostop
  split
  case h_9 h0 h1 h2 h3 h4 h5 h6 h7 =>
    simp only [imp_false] at h0 h1 h2 h3 h4 h5 h6 h7
    have hop : 8 ≤ (hostOp w).toNat := by omega
    exact decide_eq_true (BitVec.le_def.2 hop)
  all_goals rfl

/-- Settles O4: the fields of the request come back, and its operation select picks the row. -/
theorem hostRequestSelectsOperation : Obligations.HostRequestSelectsOperation := by
  intro p arg dly
  refine ⟨congrArg _ (decodeHostop_sendcmd arg dly), congrArg _ (decodeHostop_wrdata arg dly),
    ?_, ?_, ?_, ?_, ?_, ?_, fun op hop => ?_⟩
  case refine_7 =>
    rw [decode, decodeHostop_reserved (by rwa [hostOp_hostRequest]), hostOp_hostRequest]
  all_goals simp [decode, decodeHostop]

/-! ### The command codes (R83, R95) -/

section
variable {c : Codes} (o : BitVec 32)

theorem decodeCmd6_loadConfig : decodeCmd6 c c.loadConfig o = .loadConfig := by
  rw [decodeCmd6, if_pos rfl]

theorem decodeCmd6_loadForProgram (hc : c.Distinct) :
    decodeCmd6 c c.loadForProgram o = .loadForProgram := by
  grind [decodeCmd6, Codes.toList]

theorem decodeCmd6_readFromProgram (hc : c.Distinct) :
    decodeCmd6 c c.readFromProgram o = .readFromProgram := by
  grind [decodeCmd6, Codes.toList]

theorem decodeCmd6_incrementAddress (hc : c.Distinct) :
    decodeCmd6 c c.incrementAddress o = .incrementAddress := by
  grind [decodeCmd6, Codes.toList]

theorem decodeCmd6_beginTimedProgram (hc : c.Distinct) :
    decodeCmd6 c c.beginTimedProgram o = .beginTimedProgram (o.getLsbD 0) := by
  grind [decodeCmd6, Codes.toList]

theorem decodeCmd6_bulkErase (hc : c.Distinct) : decodeCmd6 c c.bulkErase o = .bulkErase := by
  grind [decodeCmd6, Codes.toList]

theorem decodeCmd6_resetAddress (hc : c.Distinct) :
    decodeCmd6 c c.resetAddress o = .resetAddress := by
  grind [decodeCmd6, Codes.toList]

theorem decodeCmd6_other {code : Code} (h : code ∉ c.toList) :
    decodeCmd6 c code o = .otherCommand code o := by
  grind [decodeCmd6, Codes.toList]

/-- The catch-all row applies only when no other matches (R95). -/
theorem decodeCmd6_wellFormed (code : Code) : (decodeCmd6 c code o).wellFormed c = true := by
  by_cases h : code ∈ c.toList
  · unfold decodeCmd6
    split_ifs
    case neg => simp_all [Codes.toList]
    all_goals rfl
  · rw [decodeCmd6_other o h]
    exact decide_eq_true h

end

/-! ### The slots of a frame (R84, R86) and the fields of the ID word (R89)

A data-out word has the layout of a raw data-in word with first slot 0. -/

section
variable (last first : Bool) (payload : Payload)

theorem rawOfFrame_getLsbD {i : Nat} (hi : i < 16) : (rawOfFrame last payload first).getLsbD i =
    if i = 0 then first else if i = 15 then last else payload.getLsbD (i - 1) := by
  simp only [rawOfFrame, BitVec.getLsbD_append, BitVec.getLsbD_ofBool]
  by_cases h0 : i = 0
  · subst h0; rfl
  · by_cases h15 : i = 15
    · subst h15; simp
    · simp [h0, h15, show i - 1 < 14 by omega]

theorem rawOfFrame_first : (rawOfFrame last payload first).getLsbD 0 = first :=
  rawOfFrame_getLsbD last first payload (by decide)

theorem rawOfFrame_last : (rawOfFrame last payload first).getLsbD 15 = last :=
  rawOfFrame_getLsbD last first payload (by decide)

theorem rawOfFrame_payload : (rawOfFrame last payload first).extractLsb' 1 14 = payload := by
  rw [rawOfFrame, BitVec.extractLsb'_append_eq_of_le (by decide)]
  exact BitVec.extractLsb'_append_eq_right

end

/-- A raw word is its slots. -/
theorem rawOfFrame_slots (w : Word) :
    rawOfFrame (w.getLsbD 15) (w.extractLsb' 1 14) (w.getLsbD 0) = w := by
  refine BitVec.eq_of_getLsbD_eq fun i hi => ?_
  rw [rawOfFrame_getLsbD _ _ _ hi]
  split
  next h => rw [h]
  next h =>
    split
    next h' => rw [h']
    next h' => simp [show i - 1 < 14 by omega, show 1 + (i - 1) = i by omega]

section
variable (x : BitVec 2) (id : BitVec 9) (rev : BitVec 5)

theorem idWordOf_ignored : (idWordOf x id rev).extractLsb' 14 2 = x := by
  rw [idWordOf, BitVec.extractLsb'_append_eq_of_le (by decide)]
  exact BitVec.extractLsb'_append_eq_left

theorem idWordOf_deviceId : (idWordOf x id rev).extractLsb' 5 9 = id := by
  rw [idWordOf, BitVec.extractLsb'_append_eq_of_le (by decide)]
  exact BitVec.extractLsb'_append_eq_right

theorem idWordOf_deviceRev : (idWordOf x id rev).extractLsb' 0 5 = rev :=
  BitVec.extractLsb'_append_eq_right

end

/-- An ID word is its fields. -/
theorem idWordOf_fields (w : Word) :
    idWordOf (w.extractLsb' 14 2) (w.extractLsb' 5 9) (w.extractLsb' 0 5) = w := by
  rw [idWordOf, BitVec.extractLsb'_append_extractLsb'_eq_extractLsb' (show 14 = 5 + 9 from rfl),
    BitVec.extractLsb'_append_extractLsb'_eq_extractLsb' (show 5 = 0 + 5 from rfl)]
  exact BitVec.extractLsb'_eq_self

/-! ### The decoder and the encoder -/

theorem decode_dout16 (p : Params) (stop : Bool) (payload : Payload) :
    decode p (.dout16 (rawOfFrame stop payload false)) = .ok (.dataOutFrame stop payload) := by
  rw [decode, rawOfFrame_first, rawOfFrame_last, rawOfFrame_payload, if_neg Bool.false_ne_true]

theorem decode_din16 (p : Params) (last : Bool) (payload : Payload) (first : Bool) :
    decode p (.din16 (rawOfFrame last payload first)) = .ok (.dataInFrame last payload first) := by
  rw [decode, rawOfFrame_first, rawOfFrame_last, rawOfFrame_payload]

theorem decode_idword16 (p : Params) (x : BitVec 2) (id : BitVec 9) (rev : BitVec 5) :
    decode p (.idword16 (idWordOf x id rev)) = .ok (.idWord x id rev) := by
  rw [decode, idWordOf_ignored, idWordOf_deviceId, idWordOf_deviceRev]

/-- Settles O1: each format's fields come back, and different codes name different commands. -/
theorem decodeOfEncode : Obligations.DecodeOfEncode := by
  intro p i hc hwf
  cases i with
  | sendcmd cmd d =>
    have hcmd : (cmd.setWidth 16).extractLsb' 0 6 = cmd :=
      (BitVec.extractLsb'_setWidth_of_le (by decide)).trans BitVec.extractLsb'_eq_self
    rw [encode, decode, decodeHostop_sendcmd, hcmd]
  | wrdata word => exact congrArg Except.ok (decodeHostop_wrdata word 0)
  | rddata => rfl
  | enter => rfl
  | exit => rfl
  | rstaddr => rfl
  | incaddr => rfl
  | rddevid => rfl
  | reservedOp op =>
    have hop : 8#4 ≤ hostOp (hostRequest op 0 0) := by
      rw [hostOp_hostRequest]; exact of_decide_eq_true hwf
    rw [encode, decode, decodeHostop_reserved hop, hostOp_hostRequest]
  | loadConfig => exact congrArg Except.ok (decodeCmd6_loadConfig 0)
  | loadForProgram => exact congrArg Except.ok (decodeCmd6_loadForProgram 0 hc)
  | readFromProgram => exact congrArg Except.ok (decodeCmd6_readFromProgram 0 hc)
  | incrementAddress => exact congrArg Except.ok (decodeCmd6_incrementAddress 0 hc)
  | beginTimedProgram fuseWord =>
    rw [encode, decode, decodeCmd6_beginTimedProgram _ hc]
    cases fuseWord <;> rfl
  | bulkErase => exact congrArg Except.ok (decodeCmd6_bulkErase 0 hc)
  | resetAddress => exact congrArg Except.ok (decodeCmd6_resetAddress 0 hc)
  | otherCommand cmd d => exact congrArg Except.ok (decodeCmd6_other d (of_decide_eq_true hwf))
  | dataOutFrame stop payload => exact decode_dout16 p stop payload
  | dataInFrame last payload first => exact decode_din16 p last payload first
  | keyFrame => rw [encode, decode, if_pos rfl]
  | idWord x id rev => exact decode_idword16 p x id rev

/-- Settles O2. -/
theorem decodedIsWellFormed : Obligations.DecodedIsWellFormed := by
  intro p e i h
  cases e with
  | hostop w => cases h; exact decodeHostop_wellFormed _ w
  | cmd6 code operand => cases h; exact decodeCmd6_wellFormed _ code
  | dout16 w =>
    rw [decode] at h
    split at h
    · cases h
    · cases h; rfl
  | din16 w => cases h; rfl
  | key33 w =>
    rw [decode] at h
    split at h
    · cases h; rfl
    · cases h
  | idword16 w => cases h; rfl

/-- Settles O3: a word is put together again from its slots or fields. -/
theorem frameWordsAreLossless : Obligations.FrameWordsAreLossless := by
  intro p e i hhostop hcmd6 h
  cases e with
  | hostop w => exact absurd rfl (hhostop w)
  | cmd6 code operand => exact absurd rfl (hcmd6 code operand)
  | dout16 w =>
    rw [decode] at h
    split at h
    · cases h
    next hstart =>
      cases h
      have hslots := rawOfFrame_slots w
      rw [Bool.eq_false_of_not_eq_true hstart] at hslots
      exact congrArg Encoded.dout16 hslots
  | din16 w => cases h; exact congrArg Encoded.din16 (rawOfFrame_slots w)
  | key33 w =>
    rw [decode] at h
    split at h
    next hkey => cases h; exact congrArg Encoded.key33 hkey.symm
    · cases h
  | idword16 w => cases h; exact congrArg Encoded.idword16 (idWordOf_fields w)

end Sys2Proof.Machine
end

section
/-! PROOFS. The instructions of the data path and the session: result, frame, response (R91, R112 to R140),
and that every request of the host completes (R92, R218, R221). -/

namespace Sys2Proof.Machine

/-! ### The answer to the host (R91) -/

/-- The response field of each instruction when `RES` holds `res` (R91); the rows that are no host operation
have none (log entry 5). -/
def responseField (res : Word) : Instr → Option Word
  | .sendcmd _ _ => some 0
  | .wrdata _ => some 0
  | .rddata => some res
  | .enter => some 0
  | .exit => some 0
  | .rstaddr => some 0
  | .incaddr => some 0
  | .rddevid => some res
  | .reservedOp _ => some 0
  | .loadConfig => none
  | .loadForProgram => none
  | .readFromProgram => none
  | .incrementAddress => none
  | .beginTimedProgram _ => none
  | .bulkErase => none
  | .resetAddress => none
  | .otherCommand _ _ => none
  | .dataOutFrame _ _ => none
  | .dataInFrame _ _ _ => none
  | .keyFrame => none
  | .idWord _ _ _ => none

/-- The host reads the response, where the instruction has one. -/
def answered (i : Instr) (t : State) : State :=
  match responseField t.data.res i with
  | some r => t.respond r
  | none => t

/-- Every instruction runs its operation and answers the host; none faults and none is refused. -/
theorem exec_eq (i : Instr) (s : State) :
    exec i s = .next (answered i ((instrOperation s.params i).run s)) := by
  cases i <;> rfl

/-- An operation neither takes requests nor answers them, and the block is idle after it (R27, R91). -/
theorem run_port (op : Operation) (s : State) :
    (op.run s).requests = s.requests ∧ (op.run s).responses = s.responses ∧
      (op.run s).seq.phase = .idle := by
  cases op with
  | command cmd d => rw [Operation.run, sendCommand_eq]; exact ⟨rfl, rfl, rfl⟩
  | dataOut word => rw [Operation.run, writeData_eq]; exact ⟨rfl, rfl, rfl⟩
  | dataIn given => rw [Operation.run, readData_eq]; exact ⟨rfl, rfl, rfl⟩
  | key => rw [Operation.run, keyFrame_eq]; exact ⟨rfl, rfl, rfl⟩
  | enter => rw [Operation.run, enterProgramMode_eq]; exact ⟨rfl, rfl, rfl⟩
  | exit => rw [Operation.run, exitProgramMode_eq]; exact ⟨rfl, rfl, rfl⟩
  | deviceId =>
    obtain ⟨_, _, _, _, hrequests, hresponses, hseq⟩ := resolve_frame (unframeWord (deviceIdSamples s).1) _
    rw [Operation.run, readDeviceId_eq, hrequests, hresponses, hseq]
    exact ⟨rfl, rfl, rfl⟩
  | lookup word =>
    obtain ⟨_, _, _, _, hrequests, hresponses, hseq⟩ := resolve_frame word s
    rw [Operation.run, hseq]
    exact ⟨hrequests, hresponses, rfl⟩
  | reserved => exact ⟨rfl, rfl, rfl⟩

theorem answered_of_field {i : Instr} {t : State} {r : Word} (h : responseField t.data.res i = some r) :
    answered i t = t.respond r := by
  rw [answered, h]

/-- The answer touches no register. -/
theorem answered_data (i : Instr) (t : State) : (answered i t).data = t.data := by
  rw [answered]; split <;> rfl

/-- An instruction with a response field takes no request, is answered once, with the outcome and that
field, and leaves the block idle (R27, R91). -/
theorem exec_answer {i : Instr} {s t : State} (h : exec i s = .next t) {r : Word}
    (hfield : responseField t.data.res i = some r) :
    t.requests = s.requests ∧ t.responses = s.responses ++ [⟨t.status, r⟩] ∧ t.seq.phase = .idle := by
  rw [exec_eq] at h
  cases h
  rw [answered_data] at hfield
  obtain ⟨hrequests, hresponses, hphase⟩ := run_port (instrOperation s.params i) s
  rw [answered_of_field hfield, respond_responses, hresponses]
  exact ⟨hrequests, rfl, hphase⟩

/-- Settles O45, by the response field of each host operation. -/
theorem hostOperationsAreAnswered : Obligations.HostOperationsAreAnswered := by
  intro i s t h
  have hanswer : ∀ r, responseField t.data.res i = some r → t.responses = s.responses ++ [⟨t.status, r⟩] := by
    intro r hfield
    obtain ⟨_, hresponses, _⟩ := exec_answer h hfield
    exact hresponses
  refine ⟨fun hread => hanswer _ ?_, fun hother => hanswer _ ?_⟩
  · rcases hread with rfl | rfl <;> rfl
  · rcases hother with ⟨_, _, rfl⟩ | ⟨_, rfl⟩ | rfl | rfl | rfl | rfl | ⟨_, rfl⟩ <;> rfl

/-- Every request names an instruction that is answered (R91, R92). -/
theorem decodeHostop_field (res : Word) (w : BitVec 52) :
    ∃ r, responseField res (decodeHostop w) = some r := by
  unfold decodeHostop
  split <;> exact ⟨_, rfl⟩

/-- Settles O8: a request always decodes, and what it decodes to runs and is answered. -/
theorem everyHostRequestCompletes : Obligations.EveryHostRequestCompletes := by
  intro s w es hreset hrequests
  have hstep := step_of_decode (i := decodeHostop w) hreset hrequests rfl
  obtain ⟨t, hexec⟩ : ∃ t, exec (decodeHostop w) { s with requests := es } = .next t := ⟨_, exec_eq _ _⟩
  obtain ⟨r, hfield⟩ := decodeHostop_field t.data.res w
  obtain ⟨htaken, hresponses, hphase⟩ := exec_answer hexec hfield
  refine ⟨t, hstep.trans hexec, htaken, hphase, ?_⟩
  rw [hresponses, List.length_append, List.length_singleton]

/-! ### What the bit-link operations change and leave (R112 to R116) -/

theorem emitAll_emitted {p : Params} {es : List PinEvent} {s t : State} (h : t.wire = s.wire.emitAll p es) :
    Emitted es s t := by
  rw [Emitted, h]
  exact ⟨wire_emitAll_trace es p s.wire, wire_emitAll_oracle es p s.wire⟩

/-! `CommandSent`, `DataSent` and `DataReceived` say nothing of the responses, so the operation has them with
any. -/

theorem sendCommand_sent (cmd : Code) (d : Nat) (s : State) (rs : List Response) :
    CommandSent cmd d s { sendCommand cmd d s with responses := rs } := by
  rw [sendCommand_eq]
  exact ⟨emitAll_emitted rfl, (wire_emitAll_pins _ _ _).trans (after_command _ _ _ _), rfl⟩

theorem writeData_sent (word : Word) (s : State) (rs : List Response) :
    DataSent word s { writeData word s with responses := rs } := by
  rw [writeData_eq]
  exact ⟨emitAll_emitted rfl, (wire_emitAll_pins _ _ _).trans (after_dataOut _ _ _), rfl⟩

theorem readData_received (given : Option Word) (s : State) (rs : List Response) :
    DataReceived (readSamples given s).1 s { readData given s with responses := rs } := by
  obtain ⟨htrace, hpins⟩ := readData_wire given s
  rw [after_dataIn] at hpins
  exact ⟨htrace, hpins, by rw [readData_eq]⟩

/-- A frame given as such is received as it is (R86). -/
theorem readData_given_received (raw : Word) (s : State) : DataReceived raw s (readData (some raw) s) := by
  have hreceived := readData_received (some raw) s (readData (some raw) s).responses
  rw [readSamples_given] at hreceived
  exact hreceived

/-- Settles O9: the command frame, answered with 0. -/
theorem sendcmdSendsCommandFrame : Obligations.SendcmdSendsCommandFrame := by
  intro cmd d s
  refine ⟨runSendcmd cmd d.toNat s, rfl, sendCommand_sent cmd d.toNat s _, ?_⟩
  rw [runSendcmd, sendCommand_eq]
  rfl

/-- Settles O10: the data-out frame, answered with 0. -/
theorem wrdataSendsFramedWord : Obligations.WrdataSendsFramedWord := by
  intro word s
  refine ⟨runWrdata word s, rfl, writeData_sent word s _, ?_⟩
  rw [runWrdata, writeData_eq]
  rfl

/-- Settles O11: the word that the samples assemble to, whatever they are. -/
theorem rddataReceivesFrame : Obligations.RddataReceivesFrame := by
  intro s
  refine ⟨(readSamples none s).1, runRddata s, rfl, readData_received none s _, ?_⟩
  rw [runRddata, readData_eq]
  exact ⟨rfl, rfl⟩

/-! ### The frames as instructions of their own (R84 to R87) -/

theorem wordOfFrame_getLsbD (stop : Bool) (payload : Payload) {i : Nat} (hi : i < 16) :
    (wordOfFrame stop payload).getLsbD i =
      if i = 15 then false else if i = 14 then stop else payload.getLsbD i := by
  simp only [wordOfFrame, BitVec.getLsbD_append, BitVec.getLsbD_ofBool]
  by_cases h15 : i = 15
  · subst h15; rfl
  · by_cases h14 : i = 14
    · subst h14; simp
    · simp [h14, h15, show i < 14 by omega]

/-- A data-out frame is the framing of its word: framing shifts the start bit 0 in (R84, R85). -/
theorem frameWord_wordOfFrame (stop : Bool) (payload : Payload) :
    frameWord (wordOfFrame stop payload) = rawOfFrame stop payload false := by
  refine BitVec.eq_of_getLsbD_eq fun i hi => ?_
  rw [rawOfFrame_getLsbD _ _ _ hi, frameWord, BitVec.getLsbD_shiftLeft]
  by_cases h0 : i = 0
  · subst h0; rfl
  · rw [wordOfFrame_getLsbD _ _ (by omega), if_neg (by omega)]
    simp [hi, h0, show i - 1 = 14 ↔ i = 15 by omega]

/-- Unframing drops the first slot (R86, R87). -/
theorem unframeWord_rawOfFrame (last : Bool) (payload : Payload) (first : Bool) :
    unframeWord (rawOfFrame last payload first) = wordOfFrame last payload := by
  refine BitVec.eq_of_getLsbD_eq fun i hi => ?_
  rw [wordOfFrame_getLsbD _ _ hi, unframeWord, BitVec.getLsbD_ushiftRight]
  by_cases h15 : i = 15
  · subst h15; simp
  · rw [rawOfFrame_getLsbD _ _ _ (by omega), if_neg (by omega), if_neg h15, Nat.add_sub_cancel_left]
    simp only [show 1 + i = 15 ↔ i = 14 by omega]

/-- Settles O21: `wordOfFrame` is the word. -/
theorem dataOutFrameIsSentAsItsWord : Obligations.DataOutFrameIsSentAsItsWord := by
  intro stop payload s
  refine ⟨wordOfFrame stop payload, writeData (wordOfFrame stop payload) s,
    frameWord_wordOfFrame stop payload, rfl, writeData_sent _ s _, ?_⟩
  rw [writeData_eq]

/-- Settles O22: the samples of a given frame assemble to it, and the oracle is not asked. -/
theorem dataInFrameIsUnframed : Obligations.DataInFrameIsUnframed := by
  intro last payload first s
  refine ⟨readData (some (rawOfFrame last payload first)) s, rfl, readData_given_received _ s, ?_, ?_,
    fun href => ?_⟩
  · rw [readData_eq, readSamples_given]
    exact unframeWord_rawOfFrame last payload first
  · rw [readData_eq]
  · have htarget := readFrame_given_oracle s.params (rawOfFrame last payload first) s.wire href
    rw [readData_eq]
    refine (wire_emitAll_oracle _ _ _ ?_).trans htarget
    rw [htarget]; exact href

/-! ### The session (R130, R134) -/

/-- Settles O13, by all that `ENTER` does. -/
theorem enterOpensSession : Obligations.EnterOpensSession := by
  intro s
  refine ⟨runEnter s, rfl, ?_⟩
  rw [runEnter, enterProgramMode_eq]
  exact ⟨emitAll_emitted rfl, (wire_emitAll_pins _ _ _).trans (after_enter _ _), rfl⟩

/-- Settles O14, by all that `EXIT` does. -/
theorem exitClosesSession : Obligations.ExitClosesSession := by
  intro s
  refine ⟨runExit s, rfl, ?_⟩
  rw [runExit, exitProgramMode_eq]
  exact ⟨emitAll_emitted rfl, (wire_emitAll_pins _ _ _).trans (after_exit _), rfl⟩

end Sys2Proof.Machine
end

section
/-! PROOFS. `RDDEVID`: the frames it makes, the pointer it ends with, and the lookup of the word it read
(R140, R152 to R155, R172). -/

namespace Sys2Proof.Machine

/-! ### The pointer after the increments (R170, R172, R173) -/

section
variable {c : Codes} (q : Sequencer)

theorem shadowUpdate_loadConfig (hc : c.Distinct) :
    shadowUpdate c c.loadConfig q = { q with ap := configBase, apKnown := true } := by
  grind [shadowUpdate, Codes.toList]

theorem shadowUpdate_incrementAddress (hc : c.Distinct) :
    shadowUpdate c c.incrementAddress q = incrementPointer q := by
  grind [shadowUpdate, Codes.toList]

theorem shadowUpdate_readFromProgram (hc : c.Distinct) : shadowUpdate c c.readFromProgram q = q := by
  grind [shadowUpdate, Codes.toList]

/-- A known pointer advances and stays known inside either range (R172). -/
theorem incrementPointer_inside (hknown : q.apKnown = true) (hcode : q.ap ≠ 0x1FFF#16)
    (hlast : q.ap < 0x2007#16) : incrementPointer q = { q with ap := q.ap + 1 } := by
  rw [incrementPointer, if_pos hknown, if_neg]
  exact not_or.2 ⟨hcode, BitVec.not_le.2 hlast⟩

/-- load-config and up to seven increments: as far as the fuse word the pointer stays known (R172). -/
theorem pointerAfter_loadConfig (hc : c.Distinct) {k : Nat} (hk : k ≤ 7) :
    pointerAfter c k (shadowUpdate c c.loadConfig q) =
      { q with ap := 0x2000#16 + BitVec.ofNat 16 k, apKnown := true } := by
  induction k with
  | zero => rw [pointerAfter, shadowUpdate_loadConfig q hc]; rfl
  | succ k ih =>
    have hnext : 0x2000#16 + BitVec.ofNat 16 k + 1 = 0x2000#16 + BitVec.ofNat 16 (k + 1) := by bv_omega
    rw [pointerAfter, ih (by omega), shadowUpdate_incrementAddress _ hc,
      incrementPointer_inside _ rfl (by dsimp only; bv_omega) (by dsimp only; bv_omega)]
    dsimp only
    rw [hnext]

/-- `RDDEVID` leaves a known pointer at the device-ID word (R140). -/
theorem deviceIdPointer_eq (hc : c.Distinct) {k : Nat} (hk : k ≤ 7) :
    deviceIdPointer c k q =
      { q with ap := 0x2000#16 + BitVec.ofNat 16 k, apKnown := true, phase := .idle } := by
  rw [deviceIdPointer, shadowUpdate_readFromProgram _ hc, pointerAfter_loadConfig q hc hk]

end

/-! ### The lookup of an ID word (R152 to R155) -/

theorem deviceIdOf_eq_extract (w : Word) : deviceIdOf w = w.extractLsb' 5 9 := by
  rw [deviceIdOf, BitVec.setWidth_and, BitVec.setWidth_ushiftRight_eq_extractLsb]
  exact BitVec.and_allOnes

theorem deviceRevOf_eq_extract (w : Word) : deviceRevOf w = w.extractLsb' 0 5 := by
  rw [deviceRevOf, BitVec.setWidth_and, ← BitVec.setWidth_eq_extractLsb' (by decide)]
  exact BitVec.and_allOnes

theorem resolve_of_match {w : Word} {s : State} {r : Row}
    (h : lookup s.params.table (w.extractLsb' 5 9) = some r) :
    resolve w s = { s with
      dev := ⟨true, r.name, r.codeMemorySize, w.extractLsb' 0 5, r.deviceId⟩
      imgAlloc := true, image := []
      seq := { s.seq with phase := .idle }, status := .ok } := by
  rw [resolve_eq, deviceIdOf_eq_extract, deviceRevOf_eq_extract, (lookup_mem h).2, h]

theorem resolve_of_noMatch {w : Word} {s : State}
    (h : lookup s.params.table (w.extractLsb' 5 9) = none) :
    resolve w s = { s with
      dev := ⟨false, "", 0, 0, w.extractLsb' 5 9⟩
      seq := { s.seq with phase := .idle }, status := .deviceNotRecognized } := by
  rw [resolve_eq, deviceIdOf_eq_extract, h]

/-- The registers the lookup can write: Resolved Device, allocation, image, `STATUS` (R154, R155). -/
theorem resolve_writes (w : Word) (s : State) :
    resolve w s = { s with
      dev := (resolve w s).dev
      imgAlloc := (resolve w s).imgAlloc
      image := (resolve w s).image
      seq := { s.seq with phase := .idle }
      status := (resolve w s).status } := by
  rw [resolve_eq]; split <;> rfl

/-! ### `RDDEVID` (R140) -/

theorem readDeviceId_pins (s : State) :
    (readDeviceId s).wire.pins = { s.wire.pins.framed with data := ⟨.output, false⟩ } := by
  rw [(readDeviceId_wire s).2, deviceIdEvents, after_append, after_prelude, after_dataIn]
  rfl

/-- The frames before the data-in frame take nothing from the oracle's queue (R65, R86). -/
theorem deviceIdSamples_oracle {s : State} (href : s.wire.target.ref = none)
    (hlength : 16 ≤ s.wire.target.answers.length) :
    (deviceIdSamples s).1 = queuedFrameAt s.wire.target.answers 0 := by
  have htarget : (s.wire.emitAll s.params (deviceIdPrelude s.params)).target = s.wire.target :=
    wire_emitAll_oracle _ _ _ href
  rw [← htarget] at href hlength ⊢
  exact (readFrame_oracle s.params _ href hlength).1

theorem readDeviceId_seq (s : State) :
    (readDeviceId s).seq = deviceIdPointer s.params.codes s.params.idIncrements s.seq := by
  rw [readDeviceId_eq, resolve_writes]
  rfl

/-- Settles O17: the frames, the pointer and the lookup, each by its own lemma. -/
theorem rddevidReadsAndResolves : Obligations.RddevidReadsAndResolves := by
  intro s
  refine ⟨(deviceIdSamples s).1, runRddevid s, rfl, (readDeviceId_wire s).1, readDeviceId_pins s,
    deviceIdSamples_oracle, ?_, ?_, ?_, fun hc hk => ?_, fun r hr => ?_, fun hnone => ?_⟩
  · rw [runRddevid, readDeviceId_eq, resolve_writes]
    rfl
  · rw [runRddevid, respond_seq, readDeviceId_seq, deviceIdPointer_session]
  · rw [runRddevid, respond_seq, readDeviceId_seq]; rfl
  · rw [runRddevid, respond_seq, readDeviceId_seq, deviceIdPointer_eq _ hc hk]
    exact ⟨rfl, rfl⟩
  · rw [runRddevid, readDeviceId_eq, resolve_of_match (r := r)]
    · exact ⟨rfl, rfl, rfl, rfl⟩
    · exact hr
  · rw [runRddevid, readDeviceId_eq, resolve_of_noMatch]
    · exact ⟨rfl, rfl, rfl, rfl⟩
    · exact hnone

end Sys2Proof.Machine
end

section
/-! PROOFS. The frames on the wire: their events in order, and what a receiver reads off them (R82 to R88,
R110 to R116, R130). -/

namespace Sys2Proof.Machine

/-! ### Framing (R85) -/

/-- Settles O30, slot by slot. -/
theorem framingShiftsLeftByOne : Obligations.FramingShiftsLeftByOne := by
  intro w
  refine ⟨?_, ?_, ?_, frameWord_payload w⟩
  · rw [frameWord, BitVec.toNat_shiftLeft, Nat.shiftLeft_eq, pow_one]
  · simp [frameWord]
  · simp [frameWord]

/-- The slots of a data-out frame in time order: the start bit 0, then the low bits of the word (R84). -/
theorem bitsLsbFirst_frameWord (word : Word) :
    bitsLsbFirst (frameWord word) dataBits = false :: bitsLsbFirst word 15 := by
  rw [bitsLsbFirst, dataBits, List.range_succ_eq_map, List.map_cons, List.map_map, bitsLsbFirst]
  obtain ⟨_, hstart, _⟩ := framingShiftsLeftByOne word
  rw [hstart]
  refine congrArg _ (List.map_congr_left fun i hi => ?_)
  have hslot : i + 1 < 16 := by have := List.mem_range.1 hi; omega
  simp [frameWord, hslot]

/-! ### The frames as bits (R110) -/

theorem commandEvents_eq (p : Params) (cmd : Code) (d : Nat) :
    commandEvents p cmd d =
      (bitsLsbFirst cmd 6).flatMap (shiftOutBit p) ++ [.set .data false, .delay d] := rfl

theorem dataOutEvents_eq (p : Params) (word : Word) :
    dataOutEvents p word =
      (false :: bitsLsbFirst word 15).flatMap (shiftOutBit p) ++ [.set .data false] := by
  rw [dataOutEvents, shiftOutBits, bitsLsbFirst_frameWord]

/-- The additional pulse is one more bit, at 0 (R88). -/
theorem keyEvents_eq (p : Params) :
    keyEvents p = (bitsLsbFirst p.key 32 ++ [false]).flatMap (shiftOutBit p) := by
  rw [keyEvents, shiftOutBits, List.flatMap_append, List.flatMap_singleton, keyBits]

theorem dataInEvents_eq (p : Params) (raw : Word) :
    dataInEvents p raw = [.dir .data .input] ++ (bitsLsbFirst raw 16).flatMap (shiftInBitEvents p) ++
      [.dir .data .output] := rfl

/-! ### The events around the bits make no clock edge -/

/-- The event is about another pin than CLK, or about none. -/
def PinEvent.keepsClk : PinEvent → Bool
  | .dir p _ => p ≠ .clk
  | .set p _ => p ≠ .clk
  | .sample _ _ => true
  | .delay _ => true

theorem apply_clk {e : PinEvent} (h : e.keepsClk = true) (ps : Pins) : (ps.apply e).clk = ps.clk := by
  cases e with
  | dir p d =>
    cases p with
    | clk => cases h
    | mclr => rfl
    | data => rfl
  | set p v =>
    cases p with
    | clk => cases h
    | mclr => rfl
    | data => rfl
  | sample p b => rfl
  | delay t => rfl

theorem falls_of_keepsClk {es : List PinEvent} (h : es.all PinEvent.keepsClk = true) (ps : Pins) :
    dataAtFalls ps es = [] := by
  induction es generalizing ps with
  | nil => rfl
  | cons e es ih =>
    obtain ⟨he, hes⟩ := Bool.and_eq_true_iff.1 (List.all_cons ▸ h)
    rw [dataAtFalls, PinEvent.isFall, apply_clk he, Bool.and_not_self, if_neg Bool.false_ne_true, ih hes]

theorem rises_of_keepsClk {es : List PinEvent} (h : es.all PinEvent.keepsClk = true) (ps : Pins) :
    clockRises ps es = 0 := by
  induction es generalizing ps with
  | nil => rfl
  | cons e es ih =>
    obtain ⟨he, hes⟩ := Bool.and_eq_true_iff.1 (List.all_cons ▸ h)
    rw [clockRises, PinEvent.isRise, apply_clk he, Bool.not_and_self, if_neg Bool.false_ne_true, ih hes]

/-! ### What a receiver reads -/

/-- Settles O32: the bits at the falling edges, and no edge after them. -/
theorem commandFrameOnTheWire : Obligations.CommandFrameOnTheWire := by
  intro ps p cmd d
  refine ⟨?_, ?_, ?_, ?_, fun hclk => ?_⟩
  · rw [commandEvents_eq, falls_append, falls_shiftOut, falls_of_keepsClk rfl, List.append_nil]
    rfl
  · rw [after_command]; rfl
  · rw [commandEvents_eq, List.length_append, length_shiftOut, bitsLsbFirst_length]; rfl
  · rw [commandEvents_eq, bitsLsbFirst, List.flatMap_map]; rfl
  · rw [commandEvents_eq, rises_append, rises_shiftOut ps hclk, bitsLsbFirst_length,
      rises_of_keepsClk rfl]

/-- Settles O33: the slots of the frame are a 0 and the low fifteen bits of the word. -/
theorem dataOutFrameOnTheWire : Obligations.DataOutFrameOnTheWire := by
  intro ps p word
  rw [after_dataOut, dataOutEvents_eq]
  refine ⟨?_, rfl, ?_, rfl⟩
  · rw [falls_append, falls_shiftOut, falls_of_keepsClk rfl, List.append_nil]
    rfl
  · rw [List.length_append, length_shiftOut, List.length_cons, bitsLsbFirst_length]
    rfl

/-- Settles O34: MCLR's events make no clock edge, and the additional pulse is a bit like the others. -/
theorem keyOnTheWire : Obligations.KeyOnTheWire := by
  intro ps p
  refine ⟨?_, ?_, rfl, keyEvents_eq p⟩
  · rw [enterEvents, falls_append, falls_of_keepsClk rfl, List.nil_append, keyEvents_eq, falls_shiftOut]
    rfl
  · rw [enterEvents, List.length_append, keyEvents_eq, length_shiftOut, List.length_append,
      bitsLsbFirst_length]
    rfl

/-- Settles O35: between its two turns DATA stays released. -/
theorem dataInFrameOnTheWire : Obligations.DataInFrameOnTheWire := by
  intro ps p raw
  rw [after_dataIn, dataInEvents_eq]
  refine ⟨?_, ?_, rfl, ?_, ?_⟩
  · rw [samples_append, samples_append, samples_shiftIn]
    rfl
  · obtain ⟨hreleased, _⟩ := released_shiftIn (ps.apply (.dir .data .input)) rfl p (bitsLsbFirst raw 16)
    rw [released_append, released_append, after_cons, after_nil, hreleased]
    rfl
  · rw [List.length_append, List.length_append, length_shiftIn, bitsLsbFirst_length]
    rfl
  · rw [bitsLsbFirst, List.flatMap_map]
    rfl

end Sys2Proof.Machine
end

section
/-! PROOFS. Framing and unframing of data words (R117), and the redundant `PinSet`s of a list of events
(R113). -/

namespace Sys2Proof.Machine

/-! ### Framing laws (R117) -/

/-- A word masked to its low `n` bits is what its `n`-bit truncation extends to. -/
theorem and_lowMask (n : Nat) (w : Word) :
    w &&& (BitVec.allOnes n).setWidth 16 = (w.setWidth n).setWidth 16 := by
  refine BitVec.eq_of_getLsbD_eq fun i hi => ?_
  simp only [BitVec.getLsbD_and, BitVec.getLsbD_setWidth, BitVec.getLsbD_allOnes, hi, decide_true,
    Bool.true_and, Bool.and_comm]

/-- Framing shifts bit 15 out and unframing shifts a 0 in for it. -/
theorem unframeWord_frameWord (w : Word) :
    unframeWord (frameWord w) = (w.setWidth 15).setWidth 16 := by
  refine BitVec.eq_of_getLsbD_eq fun i hi => ?_
  rw [unframeWord, BitVec.getLsbD_ushiftRight, frameWord, BitVec.getLsbD_shiftLeft]
  have hslot : 1 + i < 16 ↔ i < 15 := by omega
  simp [hi, hslot]

/-- The payload of an unframed word is bits 14:1 of the raw word. -/
theorem unframeWord_payload (raw : Word) :
    (unframeWord raw).setWidth 14 = raw.extractLsb' 1 14 :=
  BitVec.setWidth_ushiftRight_eq_extractLsb

/-- Settles O29: both masks are truncations, and a 14-bit word has no bit to lose. -/
theorem unframingUndoesFraming : Obligations.UnframingUndoesFraming := by
  have hmask15 : 0x7FFF#16 = (BitVec.allOnes 15).setWidth 16 := rfl
  have hmask14 : 0x3FFF#16 = (BitVec.allOnes 14).setWidth 16 := rfl
  refine ⟨fun w => ?_, fun w hw => ?_, fun raw => ?_⟩
  · rw [hmask15, and_lowMask, unframeWord_frameWord]
  · have hfits : w < BitVec.twoPow 16 15 :=
      BitVec.lt_def.2 (Nat.lt_of_le_of_lt (BitVec.le_def.1 hw) (by decide))
    rw [unframeWord_frameWord, BitVec.setWidth_setWidth_eq_self hfits]
  · rw [hmask14, and_lowMask, unframeWord_payload]

/-! ### Redundant `PinSet`s (R113) -/

/-- Writing back a pin's own register changes nothing. -/
@[simp] theorem put_get (ps : Pins) (p : Pin) : ps.put (ps.get p) p = ps := by
  cases p <;> rfl

/-- The redundant events are the `PinSet`s to the latched level. -/
theorem redundant_iff {ps : Pins} {e : PinEvent} :
    e.redundant ps = true ↔ ∃ p, e = .set p (ps.get p).lvl := by
  cases e with
  | set p v =>
    constructor
    · intro h
      exact ⟨p, by rw [eq_of_beq h]⟩
    · rintro ⟨q, h⟩
      cases h
      exact beq_self_eq_true _
  | dir p d => simp [PinEvent.redundant]
  | sample p b => simp [PinEvent.redundant]
  | delay t => simp [PinEvent.redundant]

/-- A redundant event leaves the pin registers as they were, so it is no clock edge. -/
theorem apply_of_redundant {ps : Pins} {e : PinEvent} (h : e.redundant ps = true) : ps.apply e = ps := by
  obtain ⟨p, rfl⟩ := redundant_iff.1 h
  exact put_get ps p

theorem isFall_of_redundant {ps : Pins} {e : PinEvent} (h : e.redundant ps = true) :
    e.isFall ps = false := by
  rw [PinEvent.isFall, apply_of_redundant h, Bool.and_not_self]

theorem level_of_redundant {ps : Pins} {e : PinEvent} (h : e.redundant ps = true) : e.level = none := by
  obtain ⟨p, rfl⟩ := redundant_iff.1 h
  rfl

theorem time_of_redundant {ps : Pins} {e : PinEvent} (h : e.redundant ps = true) : e.time = 0 := by
  obtain ⟨p, rfl⟩ := redundant_iff.1 h
  rfl

theorem sampledLevels_cons (e : PinEvent) (es : List PinEvent) :
    sampledLevels (e :: es) = e.level.toList ++ sampledLevels es := by
  rw [sampledLevels, List.filterMap_cons]
  cases e.level <;> rfl

theorem duration_cons (e : PinEvent) (es : List PinEvent) :
    duration (e :: es) = e.time + duration es := rfl

/-! ### What an observer can tell without them -/

theorem after_observable (ps : Pins) (es : List PinEvent) : ps.after (observable ps es) = ps.after es := by
  fun_induction observable ps es with
  | case1 ps => rfl
  | case2 ps e es hdrop ih => rw [after_cons, ← ih, apply_of_redundant hdrop]
  | case3 ps e es hkeep ih => rw [after_cons, after_cons, ih]

theorem falls_observable (ps : Pins) (es : List PinEvent) :
    dataAtFalls ps (observable ps es) = dataAtFalls ps es := by
  fun_induction observable ps es with
  | case1 ps => rfl
  | case2 ps e es hdrop ih =>
    rw [dataAtFalls, isFall_of_redundant hdrop, if_neg Bool.false_ne_true, ← ih, apply_of_redundant hdrop]
  | case3 ps e es hkeep ih => rw [dataAtFalls, dataAtFalls, ih]

theorem samples_observable (ps : Pins) (es : List PinEvent) :
    sampledLevels (observable ps es) = sampledLevels es := by
  fun_induction observable ps es with
  | case1 ps => rfl
  | case2 ps e es hdrop ih => rw [ih, sampledLevels_cons e es, level_of_redundant hdrop]; rfl
  | case3 ps e es hkeep ih => rw [sampledLevels_cons, sampledLevels_cons, ih]

theorem duration_observable (ps : Pins) (es : List PinEvent) :
    duration (observable ps es) = duration es := by
  fun_induction observable ps es with
  | case1 ps => rfl
  | case2 ps e es hdrop ih => rw [ih, duration_cons e es, time_of_redundant hdrop, Nat.zero_add]
  | case3 ps e es hkeep ih => rw [duration_cons, duration_cons, ih]

/-- Settles O38: a redundant `PinSet` moves no register, makes no edge, samples nothing and takes no time. -/
theorem redundantSetsAreUnobservable : Obligations.RedundantSetsAreUnobservable := fun ps es =>
  ⟨after_observable ps es, falls_observable ps es, samples_observable ps es, duration_observable ps es⟩

end Sys2Proof.Machine
end

section
/-! PROOFS. The session (41_session.md): the shadow pointer after `RSTADDR` and `INCADDR` (R136, R138), the
events of `RDDEVID` counted (R140), the pins after `EXIT` (R134), and that no operation tests the session
(R144). -/

namespace Sys2Proof.Machine

/-! ### The pointer commands (R136, R138, R172) -/

theorem shadowUpdate_resetAddress (c : Codes) (q : Sequencer) :
    shadowUpdate c c.resetAddress q = { q with ap := 0, apKnown := true } := by
  rw [shadowUpdate, if_pos rfl]

/-- A known pointer advances in any case, and stays known inside either range (R172). -/
theorem incrementPointer_known {q : Sequencer} (hknown : q.apKnown = true) :
    (incrementPointer q).ap = q.ap + 1 ∧
      ((incrementPointer q).apKnown = true ↔ q.ap ≠ 0x1FFF#16 ∧ q.ap < 0x2007#16) := by
  rw [incrementPointer, if_pos hknown, ← BitVec.not_le, ← not_or]
  split
  next hleaves => exact ⟨rfl, iff_of_false Bool.false_ne_true (not_not_intro hleaves)⟩
  next hstays => exact ⟨rfl, iff_of_true hknown hstays⟩

theorem incrementPointer_unknown {q : Sequencer} (hunknown : q.apKnown = false) : incrementPointer q = q := by
  rw [incrementPointer, if_neg (Bool.not_eq_true _ ▸ hunknown)]

/-! `RSTADDR` and `INCADDR` are `SENDCMD`s of their codes. -/

theorem runRstaddr_eq (s : State) :
    runRstaddr s = runSendcmd s.params.codes.resetAddress s.params.tDly s := rfl

theorem runIncaddr_eq (s : State) :
    runIncaddr s = runSendcmd s.params.codes.incrementAddress s.params.tDly s := rfl

/-- The pointer follows the shadow-pointer column of R166. -/
theorem runSendcmd_seq (cmd : Code) (d : Nat) (s : State) :
    (runSendcmd cmd d s).seq = { shadowUpdate s.params.codes cmd s.seq with phase := .idle } := by
  rw [runSendcmd, sendCommand_eq]; rfl

theorem runSendcmd_responses (cmd : Code) (d : Nat) (s : State) :
    (runSendcmd cmd d s).responses = s.responses ++ [⟨.ok, 0⟩] := by
  rw [runSendcmd, sendCommand_eq]; rfl

/-- Settles O15: the shadow-pointer column asks nothing of the pointer before. -/
theorem rstaddrSetsPointerToZero : Obligations.RstaddrSetsPointerToZero := by
  intro s
  refine ⟨runRstaddr s, rfl, sendCommand_sent _ _ s _, ?_⟩
  rw [runRstaddr_eq, runSendcmd_seq, shadowUpdate_resetAddress]
  exact ⟨rfl, rfl, runSendcmd_responses _ _ s⟩

/-- Settles O16, by the two cases of an increment. -/
theorem incaddrAdvancesKnownPointer : Obligations.IncaddrAdvancesKnownPointer := by
  intro s hc
  refine ⟨runIncaddr s, rfl, sendCommand_sent _ _ s _, runSendcmd_responses _ _ s, ?_⟩
  rw [runIncaddr_eq, runSendcmd_seq, shadowUpdate_incrementAddress _ hc]
  refine ⟨incrementPointer_known, fun hunknown => ?_⟩
  rw [incrementPointer_unknown hunknown]
  exact ⟨rfl, hunknown⟩

/-! ### The events of `RDDEVID` (R140) -/

theorem commandEvents_length (p : Params) (cmd : Code) (d : Nat) : (commandEvents p cmd d).length = 32 := by
  obtain ⟨_, _, hlength, _⟩ := commandFrameOnTheWire Pins.reset p cmd d
  exact hlength

theorem dataOutEvents_length (p : Params) (word : Word) : (dataOutEvents p word).length = 81 := by
  obtain ⟨_, _, hlength, _⟩ := dataOutFrameOnTheWire Pins.reset p word
  exact hlength

theorem dataInEvents_length (p : Params) (raw : Word) : (dataInEvents p raw).length = 82 := by
  obtain ⟨_, _, _, hlength, _⟩ := dataInFrameOnTheWire Pins.reset p raw
  exact hlength

theorem incrementEvents_length (p : Params) (k : Nat) : (incrementEvents p k).length = 32 * k := by
  induction k with
  | zero => rfl
  | succ k ih => rw [incrementEvents_succ, List.length_append, commandEvents_length, ih]; omega

/-- The frames the block sends sample nothing (R112, R114). -/
theorem commandEvents_samples (p : Params) (cmd : Code) (d : Nat) :
    sampledLevels (commandEvents p cmd d) = [] := by
  rw [commandEvents_eq, samples_append, samples_shiftOut]; rfl

theorem dataOutEvents_samples (p : Params) (word : Word) : sampledLevels (dataOutEvents p word) = [] := by
  rw [dataOutEvents_eq, samples_append, samples_shiftOut]; rfl

theorem incrementEvents_samples (p : Params) (k : Nat) : sampledLevels (incrementEvents p k) = [] := by
  induction k with
  | zero => rfl
  | succ k ih => rw [incrementEvents_succ, samples_append, commandEvents_samples, ih]; rfl

theorem deviceIdPrelude_samples (p : Params) : sampledLevels (deviceIdPrelude p) = [] := by
  simp only [deviceIdPrelude, samples_append, commandEvents_samples, dataOutEvents_samples,
    incrementEvents_samples, List.append_nil]

/-- Settles O36: all samples are in the data-in frame. -/
theorem rddevidEventCount : Obligations.RddevidEventCount := by
  intro p raw
  refine ⟨?_, ?_⟩
  · simp only [deviceIdEvents, deviceIdPrelude, List.length_append, commandEvents_length,
      dataOutEvents_length, incrementEvents_length, dataInEvents_length]
  · obtain ⟨hsamples, _⟩ := dataInFrameOnTheWire Pins.reset p raw
    rw [deviceIdEvents, samples_append, deviceIdPrelude_samples, List.nil_append, hsamples,
      List.length_map, List.length_range]

/-! ### The pins after `EXIT` (R134, R232) -/

/-- Between operations and without a session the pin registers are those of reset. -/
theorem Inv.pins_of_unpowered {s : State} (h : Inv s) (hsession : s.seq.session = .unpowered) :
    s.wire.pins = Pins.reset := by
  have hmclr : s.wire.pins.mclr = ⟨.input, false⟩ :=
    congrArg₂ PinReg.mk (h.mclrReleased hsession) h.mclrLow
  calc s.wire.pins = ⟨s.wire.pins.mclr, s.wire.pins.clk, s.wire.pins.data⟩ := rfl
    _ = Pins.reset := by rw [hmclr, h.clk, h.data]; rfl

/-- Settles O51: `EXIT` keeps the invariant and leaves no session. -/
theorem exitRestoresResetPins : Obligations.ExitRestoresResetPins := by
  intro s h
  obtain ⟨t, hexec, _, _, hframe⟩ := exitClosesSession s
  exact ⟨t, hexec, (h.exec hexec).pins_of_unpowered (by rw [hframe])⟩

/-! ### What no operation tests (R144, R218, R220) -/

/-- The outcome of the lookup is fixed by the table and the word (R153 to R155). -/
theorem resolve_status_eq (w : Word) (s : State) :
    (resolve w s).status =
      if (lookup s.params.table (deviceIdOf w)).isSome then .ok else .deviceNotRecognized := by
  rw [resolve_eq]
  cases lookup s.params.table (deviceIdOf w) <;> rfl

/-- Parameters, wire and data path: what an operation can test. -/
def SameInputs (s s' : State) : Prop := s'.params = s.params ∧ s'.wire = s.wire ∧ s'.data = s.data

/-- Wire, data path and outcome: what an operation hands on, but for the registers of the session. -/
def SameResults (t t' : State) : Prop := t'.wire = t.wire ∧ t'.data = t.data ∧ t'.status = t.status

theorem resolve_sameResults (w : Word) {s s' : State} (h : SameInputs s s') :
    SameResults (resolve w s) (resolve w s') := by
  obtain ⟨hparams, hwire, hdata⟩ := h
  obtain ⟨hw, hd, _⟩ := resolve_frame w s
  obtain ⟨hw', hd', _⟩ := resolve_frame w s'
  refine ⟨?_, ?_, ?_⟩
  · rw [hw, hw', hwire]
  · rw [hd, hd', hdata]
  · rw [resolve_status_eq, resolve_status_eq, hparams]

/-- Every operation gets its results from the parameters, the wire and the data path. -/
theorem run_sameResults (op : Operation) {s s' : State} (h : SameInputs s s') :
    SameResults (op.run s) (op.run s') := by
  have hinputs := h
  obtain ⟨hparams, hwire, hdata⟩ := h
  cases op with
  | command cmd d => simp only [Operation.run, sendCommand_eq, SameResults, hparams, hwire, hdata, and_self]
  | dataOut word => simp only [Operation.run, writeData_eq, SameResults, hparams, hwire, hdata, and_self]
  | dataIn given =>
    simp only [Operation.run, readData_eq, readSamples, SameResults, hparams, hwire, hdata, and_self]
  | key => simp only [Operation.run, keyFrame_eq, SameResults, hparams, hwire, hdata, and_self]
  | enter => simp only [Operation.run, enterProgramMode_eq, SameResults, hparams, hwire, hdata, and_self]
  | exit => simp only [Operation.run, exitProgramMode_eq, SameResults, hparams, hwire, hdata, and_self]
  | deviceId =>
    rw [Operation.run, Operation.run, readDeviceId_eq, readDeviceId_eq, deviceIdSamples, deviceIdSamples,
      hparams, hwire]
    exact resolve_sameResults _ ⟨rfl, rfl, rfl⟩
  | lookup word => exact resolve_sameResults word hinputs
  | reserved => exact ⟨hwire, hdata, rfl⟩

/-- Settles O42: both runs are of one operation, from the same inputs. -/
theorem noOperationTestsTheSession : Obligations.NoOperationTestsTheSession := by
  intro i s t t' q d o a h h'
  obtain ⟨rs, rfl⟩ := exec_operation h
  obtain ⟨rs', rfl⟩ := exec_operation h'
  exact run_sameResults (instrOperation s.params i)
    (s' := { s with seq := q, dev := d, status := o, imgAlloc := a }) ⟨rfl, rfl, rfl⟩

end Sys2Proof.Machine
end

section
/-! PROOFS. The device-ID lookup (42_device_id_lookup.md): the ID word's fields, the first row with an ID,
and what the lookup of an ID word leaves (R152 to R156). -/

namespace Sys2Proof.Machine

/-! ### The ID word's fields (R152) -/

/-- Bits 15:14 are in no field. -/
theorem deviceIdOf_mask (w : Word) : deviceIdOf (w &&& 0x3FFF#16) = deviceIdOf w := by
  have hmask : (0x3FFF#16).extractLsb' 5 9 = BitVec.allOnes 9 := by decide
  rw [deviceIdOf_eq_extract, deviceIdOf_eq_extract, BitVec.extractLsb'_and, hmask, BitVec.and_allOnes]

theorem deviceRevOf_mask (w : Word) : deviceRevOf (w &&& 0x3FFF#16) = deviceRevOf w := by
  have hmask : (0x3FFF#16).extractLsb' 0 5 = BitVec.allOnes 5 := by decide
  rw [deviceRevOf_eq_extract, deviceRevOf_eq_extract, BitVec.extractLsb'_and, hmask, BitVec.and_allOnes]

/-- Settles O28: shift and mask are field extraction, and the mask covers both fields. -/
theorem idWordFields : Obligations.IdWordFields := fun w =>
  ⟨deviceIdOf_eq_extract w, deviceRevOf_eq_extract w, deviceIdOf_mask w, deviceRevOf_mask w⟩

/-! ### The first row with an ID (R153) -/

/-- The lookup is the library's linear search, so that the library's laws of `find?` speak of it. -/
theorem lookup_eq_find? (t : List Row) (id : BitVec 9) :
    lookup t id = t.find? fun r => decide (r.deviceId = id) := by
  induction t with
  | nil => rfl
  | cons r t ih =>
    rw [lookup]
    split
    next h => rw [List.find?_cons_of_pos (by rwa [decide_eq_true_iff])]
    next h => rw [List.find?_cons_of_neg (by rwa [decide_eq_true_iff]), ih]

theorem lookup_eq_none_iff {t : List Row} {id : BitVec 9} :
    lookup t id = none ↔ ∀ r ∈ t, r.deviceId ≠ id := by
  simp only [lookup_eq_find?, List.find?_eq_none, decide_eq_true_iff, ne_eq]

/-- The row at index `j` has the ID, and no row before it has. -/
def FirstWithId (t : List Row) (id : BitVec 9) (j : Nat) (r : Row) : Prop :=
  t[j]? = some r ∧ r.deviceId = id ∧ ∀ k, k < j → ∀ q : Row, t[k]? = some q → q.deviceId ≠ id

theorem lookup_eq_some_iff {t : List Row} {id : BitVec 9} {r : Row} :
    lookup t id = some r ↔ ∃ j, FirstWithId t id j r := by
  rw [lookup_eq_find?, List.find?_eq_some_iff_getElem]
  constructor
  · rintro ⟨hid, j, hj, hrow, hbefore⟩
    refine ⟨j, List.getElem?_eq_some_iff.2 ⟨hj, hrow⟩, of_decide_eq_true hid, fun k hk q hq => ?_⟩
    obtain ⟨_, rfl⟩ := List.getElem?_eq_some_iff.1 hq
    simpa using hbefore k hk
  · rintro ⟨j, hrow, hid, hbefore⟩
    obtain ⟨hj, hget⟩ := List.getElem?_eq_some_iff.1 hrow
    refine ⟨decide_eq_true hid, j, hj, hget, fun k hk => ?_⟩
    simpa using hbefore k hk _ (List.getElem?_eq_getElem (hk.trans hj))

/-- Settles O26: the search meets the rows in order of their index. -/
theorem lookupFindsFirstMatch : Obligations.LookupFindsFirstMatch := fun _ _ =>
  ⟨fun _ => lookup_eq_some_iff, lookup_eq_none_iff⟩

/-! ### What the lookup of an ID word leaves (R154 to R156) -/

/-- Settles O27: the lookup answers the row, and both outcomes of `Resolve` are known in full. -/
theorem everyFirstRowIsResolved : Obligations.EveryFirstRowIsResolved := by
  intro s w
  refine ⟨fun j r hrow hbefore hid => ?_, fun habsent => ?_⟩
  · have hmatch : lookup s.params.table (w.extractLsb' 5 9) = some r := by
      rw [hid]
      exact lookup_eq_some_iff.2 ⟨j, hrow, rfl, hbefore⟩
    rw [resolve_of_match hmatch]
    exact ⟨rfl, rfl, rfl, rfl, rfl, rfl⟩
  · have hnone : lookup s.params.table (w.extractLsb' 5 9) = none :=
      lookup_eq_none_iff.2 fun r hr => (habsent r hr).symm
    rw [resolve_of_noMatch hnone]
    exact ⟨rfl, rfl⟩

/-- A device-ID word runs `Resolve` and nothing else (R89). -/
theorem exec_idWord (x : BitVec 2) (id : BitVec 9) (rev : BitVec 5) (s : State) :
    exec (.idWord x id rev) s = .next (resolve (idWordOf x id rev) s) := rfl

/-- Settles O24: the word's ID is the row's, and its revision comes back out of it. -/
theorem idWordMatchPopulatesDevice : Obligations.IdWordMatchPopulatesDevice := by
  intro x id rev s r hmatch
  have hrow : r.deviceId = id := (lookup_mem hmatch).2
  rw [← idWordOf_deviceId x id rev] at hmatch
  rw [exec_idWord, resolve_of_match hmatch, idWordOf_deviceRev, hrow]

/-- Settles O25: the word's ID stays in the Resolved Device. -/
theorem idWordNoMatchIsRaised : Obligations.IdWordNoMatchIsRaised := by
  intro x id rev s hnone
  rw [← idWordOf_deviceId x id rev] at hnone
  rw [exec_idWord, resolve_of_noMatch hnone, idWordOf_deviceId]

end Sys2Proof.Machine
end

section
/-! PROOFS. The ICSP commands (43_icsp_commands.md): the frame of each command row (R165 to R176), the
shadow pointer after a code (R166, R172), and the fuse word that `dumpConfigurationRegisters` reports (R177,
R202). -/

namespace Sys2Proof.Machine

/-! ### The instructions that send a command frame (R165) -/

/-- An instruction that runs a command sends its frame, and answers the host as its response field says. -/
theorem exec_command {i : Instr} {s : State} {cmd : Code} {d : Nat}
    (h : instrOperation s.params i = .command cmd d) :
    ∃ t, exec i s = .next t ∧ CommandSent cmd d s t ∧
      (responseField t.data.res i = none → t.responses = s.responses) := by
  obtain ⟨_, hport, _⟩ := run_port (.command cmd d) s
  refine ⟨_, exec_eq i s, ?_⟩
  rw [h, Operation.run, answered_data, answered]
  cases hfield : responseField (sendCommand cmd d s).data.res i with
  | none => exact ⟨sendCommand_sent cmd d s _, fun _ => hport⟩
  | some r => exact ⟨sendCommand_sent cmd d s _, fun hno => nomatch hno⟩

/-- A command frame moves the pointer by `ShadowUpdate` (R167). -/
theorem CommandSent.seq_eq {cmd : Code} {d : Nat} {s t : State} (h : CommandSent cmd d s t) :
    t.seq = { shadowUpdate s.params.codes cmd s.seq with phase := .idle } := by
  obtain ⟨_, _, hframe⟩ := h
  rw [hframe]

/-- Settles O19: the rows run the commands of their codes and have no response field. -/
theorem namedCommandsSendTheirFrame : Obligations.NamedCommandsSendTheirFrame := by
  intro s i cmd d hrow
  have hcommand : instrOperation s.params i = .command cmd d ∧ ∀ res, responseField res i = none := by
    simp only [List.mem_cons, List.not_mem_nil, or_false, Prod.mk.injEq] at hrow
    rcases hrow with ⟨rfl, rfl, rfl⟩ | ⟨rfl, rfl, rfl⟩ | ⟨rfl, rfl, rfl⟩ | ⟨rfl, rfl, rfl⟩ |
      ⟨rfl, rfl, rfl⟩ | ⟨rfl, rfl, rfl⟩ | ⟨rfl, rfl, rfl⟩ | ⟨rfl, rfl, rfl⟩ <;> exact ⟨rfl, fun _ => rfl⟩
  obtain ⟨hoperation, hfield⟩ := hcommand
  obtain ⟨t, hexec, hsent, hresponses⟩ := exec_command hoperation
  exact ⟨t, hexec, hsent, hresponses (hfield _)⟩

/-! ### The shadow pointer (R166) -/

/-- The four codes with no entry in the shadow-pointer column (R171, R173, R174, R175). -/
theorem shadowUpdate_unmoved {c : Codes} (hc : c.Distinct) {cmd : Code}
    (h : cmd ∈ [c.loadForProgram, c.readFromProgram, c.beginTimedProgram, c.bulkErase]) (q : Sequencer) :
    shadowUpdate c cmd q = q := by
  grind [shadowUpdate, Codes.toList]

/-- The block vouches for no pointer after a code it does not know (R176). -/
theorem shadowUpdate_unnamed {c : Codes} {cmd : Code} (h : cmd ∉ c.toList) (q : Sequencer) :
    shadowUpdate c cmd q = { q with apKnown := false } := by
  grind [shadowUpdate, Codes.toList]

/-- Settles O20: the command frame, and the last row of the shadow-pointer column. -/
theorem otherCommandForgetsPointer : Obligations.OtherCommandForgetsPointer := by
  intro s cmd d hunnamed
  obtain ⟨t, hexec, hsent, hresponses⟩ := exec_command (i := .otherCommand cmd d) (s := s) rfl
  refine ⟨t, hexec, hsent, ?_⟩
  rw [hsent.seq_eq, shadowUpdate_unnamed hunnamed]
  exact ⟨rfl, rfl, hresponses rfl⟩

/-- Settles O31: every instruction named runs the command of the code, and the clauses are the rows of the
shadow-pointer column. -/
theorem shadowPointerFollowsCode : Obligations.ShadowPointerFollowsCode := by
  intro s i cmd hc hrow
  have hcommand : ∃ d, instrOperation s.params i = .command cmd d := by
    simp only [List.mem_cons, List.not_mem_nil, or_false, Prod.mk.injEq] at hrow
    rcases hrow with ⟨_, rfl⟩ | ⟨_, rfl⟩ | ⟨rfl, rfl⟩ | ⟨rfl, rfl⟩ | ⟨rfl, rfl⟩ | ⟨rfl, rfl⟩ | ⟨rfl, rfl⟩ |
      ⟨rfl, rfl⟩ | ⟨rfl, rfl⟩ | ⟨rfl, rfl⟩ | ⟨rfl, rfl⟩ | ⟨rfl, rfl⟩ <;> exact ⟨_, rfl⟩
  obtain ⟨d, hoperation⟩ := hcommand
  obtain ⟨t, hexec, hsent, _⟩ := exec_command hoperation
  refine ⟨t, hexec, ?_⟩
  rw [hsent.seq_eq]
  refine ⟨?reset, ?config, ?increment, fun hunmoved => ?unmoved, fun hunnamed => ?unnamed⟩
  case reset => rintro rfl; rw [shadowUpdate_resetAddress]; exact ⟨rfl, rfl⟩
  case config => rintro rfl; rw [shadowUpdate_loadConfig _ hc]; exact ⟨rfl, rfl⟩
  case increment =>
    rintro rfl
    rw [shadowUpdate_incrementAddress _ hc]
    refine ⟨fun hknown hcode hlast => ?_, fun hknown hleaves => ?_, fun hunknown => ?_⟩
    · obtain ⟨hap, hstays⟩ := incrementPointer_known hknown
      exact ⟨hap, hstays.2 ⟨hcode, hlast⟩⟩
    · obtain ⟨hap, hstays⟩ := incrementPointer_known hknown
      refine ⟨hap, Bool.eq_false_iff.2 fun h => ?_⟩
      obtain ⟨hcode, hlast⟩ := hstays.1 h
      exact hleaves.elim hcode (BitVec.not_le.2 hlast)
    · rw [incrementPointer_unknown hunknown]
      exact ⟨rfl, hunknown⟩
  case unmoved => rw [shadowUpdate_unmoved hc hunmoved]; exact ⟨rfl, rfl⟩
  case unnamed => rw [shadowUpdate_unnamed hunnamed]; exact ⟨rfl, rfl⟩

/-! ### Host sequences and the block's own operations (R94, R177) -/

/-- From the block's own operation to the host's request for it: the same state, but for what the host has
been answered (R91). -/
def SameButAnswers (s t : State) : Prop := ∃ rs, t = { s with responses := rs }

namespace SameButAnswers

variable {s t : State}

theorem refl (s : State) : SameButAnswers s s := ⟨s.responses, rfl⟩

theorem params (h : SameButAnswers s t) : t.params = s.params := by
  obtain ⟨rs, rfl⟩ := h; rfl

theorem sendcmd (h : SameButAnswers s t) (cmd : Code) (d : Nat) :
    SameButAnswers (sendCommand cmd d s) (runSendcmd cmd d t) := by
  obtain ⟨rs, rfl⟩ := h
  exact ⟨_, by rw [runSendcmd, sendCommand_eq, sendCommand_eq]; rfl⟩

theorem wrdata (h : SameButAnswers s t) (word : Word) :
    SameButAnswers (writeData word s) (runWrdata word t) := by
  obtain ⟨rs, rfl⟩ := h
  exact ⟨_, by rw [runWrdata, writeData_eq, writeData_eq]; rfl⟩

theorem rddata (h : SameButAnswers s t) : SameButAnswers (readData none s) (runRddata t) := by
  obtain ⟨rs, rfl⟩ := h
  exact ⟨_, by rw [runRddata, readData_eq, readData_eq]; rfl⟩

theorem incaddrTimes (h : SameButAnswers s t) (k : Nat) :
    SameButAnswers (incrementTimes k s) (runIncaddrTimes k t) := by
  induction k with
  | zero => exact h
  | succ k ih =>
    rw [runIncaddrTimes, runIncaddr_eq, ih.params]
    exact ih.sendcmd _ _

theorem toConfig (h : SameButAnswers s t) (k : Nat) : SameButAnswers (gotoConfig k s) (gotoCfg k t) := by
  rw [gotoCfg, loadCfg, h.params]
  exact ((h.sendcmd _ _).wrdata 0).incaddrTimes k

theorem readWord (h : SameButAnswers s t) :
    SameButAnswers (readData none (sendCommand s.params.codes.readFromProgram s.params.tDly s))
      (readProg t) := by
  rw [readProg, h.params]
  exact (h.sendcmd _ _).rddata

end SameButAnswers

/-! ### The fuse word (R177, R202) -/

/-- All that a command does after `GOTOCFG k`: what the frames before it left in `TXW` and `BITCNT` is
overwritten (R177). -/
theorem sendCommand_gotoConfig (cmd : Code) (d k : Nat) (s : State) :
    sendCommand cmd d (gotoConfig k s) =
      { s with
        wire := s.wire.emitAll s.params
          (commandEvents s.params s.params.codes.loadConfig s.params.tDly ++ dataOutEvents s.params 0 ++
            incrementEvents s.params k ++ commandEvents s.params cmd d)
        data := { s.data with txw := cmd.setWidth 32, bitcnt := 5 }
        seq := {
          shadowUpdate s.params.codes cmd
            (pointerAfter s.params.codes k (shadowUpdate s.params.codes s.params.codes.loadConfig s.seq)) with
          phase := .idle }
        status := .ok } := by
  rw [gotoConfig, sendCommand_incrementTimes, writeData_eq, sendCommand_eq]
  dsimp only
  rw [pointerAfter_phase, shadowUpdate_phase, ← wire_emitAll_append, ← wire_emitAll_append]
  simp only [List.append_assoc]

theorem gotoConfig_params (k : Nat) (s : State) : (gotoConfig k s).params = s.params := by
  rw [gotoConfig, incrementTimes_params, writeData_eq, sendCommand_eq]

/-- The machine when the data-in frame of the fuse word begins (R177, R202). -/
def atFuseWord (s : State) : State :=
  sendCommand s.params.codes.readFromProgram s.params.tDly (gotoConfig cfgIncrements s)

/-- `dumpConfigurationRegisters` before its data-in frame (R177, R202). -/
def fuseWordPrelude (p : Params) : List PinEvent :=
  commandEvents p p.codes.loadConfig p.tDly ++ dataOutEvents p 0 ++ incrementEvents p cfgIncrements ++
    commandEvents p p.codes.readFromProgram p.tDly

theorem fuseWordPrelude_length (p : Params) : (fuseWordPrelude p).length = 369 := by
  simp only [fuseWordPrelude, List.length_append, commandEvents_length, dataOutEvents_length,
    incrementEvents_length, cfgIncrements]

theorem atFuseWord_params (s : State) : (atFuseWord s).params = s.params := by
  rw [atFuseWord, sendCommand_gotoConfig]

theorem atFuseWord_wire (s : State) :
    (atFuseWord s).wire = s.wire.emitAll s.params (fuseWordPrelude s.params) := by
  rw [atFuseWord, sendCommand_gotoConfig, fuseWordPrelude]

theorem atFuseWord_device (s : State) : (atFuseWord s).image = s.image ∧ (atFuseWord s).dev = s.dev := by
  rw [atFuseWord, sendCommand_gotoConfig]
  exact ⟨rfl, rfl⟩

/-- The fuse word is read with the pointer at it, known: seven increments past load-config (R177). -/
theorem atFuseWord_seq {s : State} (hc : s.params.codes.Distinct) :
    (atFuseWord s).seq = { s.seq with ap := 0x2007#16, apKnown := true, phase := .idle } := by
  have haddr : 0x2000#16 + BitVec.ofNat 16 cfgIncrements = 0x2007#16 := by decide
  rw [atFuseWord, sendCommand_gotoConfig, shadowUpdate_readFromProgram _ hc,
    pointerAfter_loadConfig s.seq hc (by decide), haddr]

/-- The frames before the data-in frame take nothing from the oracle's queue (R65). -/
theorem atFuseWord_samples {s : State} (href : s.wire.target.ref = none)
    (hlength : 16 ≤ s.wire.target.answers.length) :
    (readSamples none (atFuseWord s)).1 = queuedFrameAt s.wire.target.answers 0 := by
  have htarget : (atFuseWord s).wire.target = s.wire.target := by
    rw [atFuseWord_wire, wire_emitAll_oracle _ _ _ href]
  rw [← htarget] at href hlength ⊢
  exact (readFrame_oracle _ _ href hlength).1

theorem readFuseWord_trace (s : State) :
    (readData none (atFuseWord s)).wire.trace = s.wire.trace ++
      (fuseWordPrelude s.params ++ dataInEvents s.params (readSamples none (atFuseWord s)).1) := by
  obtain ⟨htrace, _⟩ := readData_wire none (atFuseWord s)
  rw [htrace, atFuseWord_params, atFuseWord_wire, wire_emitAll_trace, List.append_assoc]

/-- The host's requests read the fuse word as the block's own operations do (R94, R202). -/
theorem readFuseWord (s : State) :
    SameButAnswers (readData none (atFuseWord s)) (readProg (gotoCfg cfgIncrements s)) := by
  rw [atFuseWord, ← gotoConfig_params cfgIncrements s]
  exact ((SameButAnswers.refl s).toConfig cfgIncrements).readWord

/-- What `dumpConfigurationRegisters` answers and the state it ends in, in terms of the word it read
(R202). -/
theorem dumpConfigurationRegisters_eq (s : State) : ∃ rs,
    dumpConfigurationRegisters s =
      (.reported (unframeWord (readSamples none (atFuseWord s)).1 &&& payloadMask),
        { readData none (atFuseWord s) with responses := rs }) := by
  obtain ⟨rs, hread⟩ := readFuseWord s
  refine ⟨rs, ?_⟩
  rw [dumpConfigurationRegisters, hread, maskedResult, readData_eq]

/-- Settles O53: the word read at the fuse word's address is the one reported. -/
theorem dumpReportsFuseWord : Obligations.DumpReportsFuseWord := by
  intro s hc
  obtain ⟨rs, hdump⟩ := dumpConfigurationRegisters_eq s
  obtain ⟨himage, hdev⟩ := atFuseWord_device s
  have htrace := readFuseWord_trace s
  have hseq : (readData none (atFuseWord s)).seq =
      { s.seq with ap := 0x2007#16, apKnown := true, phase := .idle } := by
    rw [readData_eq, atFuseWord_seq hc]
  rw [hdump]
  refine ⟨(readSamples none (atFuseWord s)).1, rfl, atFuseWord_samples, htrace, ?_, ?_, ?_, ?_, ?_⟩
  · rw [htrace, List.length_append, List.length_append, fuseWordPrelude_length, dataInEvents_length]
  · rw [hseq]
  · rw [hseq]
  · rw [readData_eq, himage]
  · rw [readData_eq, hdev]

end Sys2Proof.Machine
end

section
/-! PROOFS. The host's writing sequences (44_transfer_sequences.md): the frames of `bulkErase` and the pointer
it leaves (R190), and the frames of a programmed row (R196, R244). -/

namespace Sys2Proof.Machine

/-! ### What the host sends -/

theorem Emitted.trans {es fs : List PinEvent} {s t u : State} (h : Emitted es s t) (h' : Emitted fs t u) :
    Emitted (es ++ fs) s u := by
  obtain ⟨htrace, htarget⟩ := h
  obtain ⟨htrace', htarget'⟩ := h'
  refine ⟨by rw [htrace', htrace, List.append_assoc], fun horacle => ?_⟩
  have hkept := htarget horacle
  rw [htarget' (hkept ▸ horacle), hkept]

/-- From `s` to `t` the host had frames sent that make the events `es`: they leave the parameters, the image
and the Resolved Device as they were (R112, R114). -/
structure FramesSent (es : List PinEvent) (s t : State) : Prop where
  emitted : Emitted es s t
  params : t.params = s.params
  image : t.image = s.image
  dev : t.dev = s.dev

namespace FramesSent

variable {es : List PinEvent} {s t u : State}

theorem refl (s : State) : FramesSent [] s s :=
  ⟨⟨(List.append_nil _).symm, fun _ => rfl⟩, rfl, rfl, rfl⟩

/-- Frames that go by the parameters and the image go by those of the start. -/
theorem trans (h : FramesSent es s t) (frames : Params → Image → List PinEvent)
    (h' : FramesSent (frames t.params t.image) t u) :
    FramesSent (es ++ frames s.params s.image) s u := by
  rw [← h.params, ← h.image]
  exact ⟨h.emitted.trans h'.emitted, h'.params.trans h.params, h'.image.trans h.image, h'.dev.trans h.dev⟩

theorem of_command {cmd : Code} {d : Nat} (h : CommandSent cmd d s t) :
    FramesSent (commandEvents s.params cmd d) s t := by
  obtain ⟨hemitted, _, hframe⟩ := h
  exact ⟨hemitted, by rw [hframe], by rw [hframe], by rw [hframe]⟩

theorem of_data {word : Word} (h : DataSent word s t) : FramesSent (dataOutEvents s.params word) s t := by
  obtain ⟨hemitted, _, hframe⟩ := h
  exact ⟨hemitted, by rw [hframe], by rw [hframe], by rw [hframe]⟩

/-- The host's `SENDCMD` sends one more command frame. -/
theorem sendcmd (h : FramesSent es s t) (cmd : Code) (d : Nat) :
    FramesSent (es ++ commandEvents s.params cmd d) s (runSendcmd cmd d t) :=
  h.trans (fun p _ => commandEvents p cmd d) (of_command (sendCommand_sent cmd d t _))

/-- The host's `WRDATA` sends one more data-out frame. -/
theorem wrdata (h : FramesSent es s t) (word : Word) :
    FramesSent (es ++ dataOutEvents s.params word) s (runWrdata word t) :=
  h.trans (fun p _ => dataOutEvents p word) (of_data (writeData_sent word t _))

theorem incaddr (h : FramesSent es s t) :
    FramesSent (es ++ commandEvents s.params s.params.codes.incrementAddress s.params.tDly) s
      (runIncaddr t) := by
  rw [runIncaddr_eq, h.params]
  exact h.sendcmd _ _

end FramesSent

/-! ### `bulkErase` (R190) -/

theorem runRstaddr_sent (s : State) :
    FramesSent (commandEvents s.params s.params.codes.resetAddress s.params.tDly) s (runRstaddr s) :=
  .of_command (sendCommand_sent _ _ s _)

theorem bulkErase_eq (s : State) :
    bulkErase s = runSendcmd s.params.codes.bulkErase s.params.tErase (runRstaddr s) := by
  rw [bulkErase, bulkEraseOp, (runRstaddr_sent s).params]

theorem bulkErase_sent (s : State) :
    FramesSent (commandEvents s.params s.params.codes.resetAddress s.params.tDly ++
      commandEvents s.params s.params.codes.bulkErase s.params.tErase) s (bulkErase s) := by
  rw [bulkErase_eq]
  exact (runRstaddr_sent s).sendcmd _ _

/-- `RSTADDR` puts the pointer at 0, and bulk-erase has no entry in the shadow-pointer column (R166). -/
theorem bulkErase_seq {s : State} (hc : s.params.codes.Distinct) :
    (bulkErase s).seq = { s.seq with ap := 0, apKnown := true, phase := .idle } := by
  rw [bulkErase_eq, runSendcmd_seq, (runRstaddr_sent s).params, shadowUpdate_unmoved hc (by simp),
    runRstaddr_eq, runSendcmd_seq, shadowUpdate_resetAddress]

/-- Settles O52: the two frames in order, and the pointer of the first. -/
theorem bulkEraseSequence : Obligations.BulkEraseSequence := by
  intro s hc
  obtain ⟨⟨htrace, _⟩, _, himage, hdev⟩ := bulkErase_sent s
  have hseq := bulkErase_seq hc
  exact ⟨htrace, by rw [hseq], by rw [hseq], himage, hdev⟩

/-! ### A programmed row (R196, R244) -/

/-- `LOADPROG` of the image's word at `a` (R94, R196). -/
def loadWordEvents (p : Params) (image : Image) (a : Nat) : List PinEvent :=
  commandEvents p p.codes.loadForProgram p.tDly ++ dataOutEvents p (image.location a)

/-- The image's word at `a` loaded and stepped past (R196). -/
def passWordEvents (p : Params) (image : Image) (a : Nat) : List PinEvent :=
  loadWordEvents p image a ++ commandEvents p p.codes.incrementAddress p.tDly

/-- The image's word at `a` loaded, the programming pulse held for `T_PROG`, and the word stepped past
(R196, R244). -/
def programWordEvents (p : Params) (image : Image) (a : Nat) : List PinEvent :=
  loadWordEvents p image a ++ commandEvents p p.codes.beginTimedProgram p.tProg ++
    commandEvents p p.codes.incrementAddress p.tDly

/-- The sixteen words of row `r`, the pulse after the last of them (R196, R244). -/
def rowEvents (p : Params) (image : Image) (r : Nat) : List PinEvent :=
  (List.range 15).flatMap (fun j => passWordEvents p image (16 * r + j)) ++
    programWordEvents p image (16 * r + 15)

theorem loadProg_sent (a : Nat) (s : State) :
    FramesSent (loadWordEvents s.params s.image a) s (loadProg (s.image.location a) s) :=
  ((FramesSent.refl s).sendcmd _ _).wrdata _

theorem passWord_sent (a : Nat) (s : State) :
    FramesSent (passWordEvents s.params s.image a) s (runIncaddr (loadProg (s.image.location a) s)) :=
  (loadProg_sent a s).incaddr

theorem programWord_sent (a : Nat) (s : State) :
    FramesSent (programWordEvents s.params s.image a) s
      (runIncaddr (beginProg (loadProg (s.image.location a) s).params.tProg
        (loadProg (s.image.location a) s))) := by
  have hload := loadProg_sent a s
  rw [beginProg, hload.params]
  exact (hload.sendcmd _ _).incaddr

/-- The words go out in the order of their addresses. -/
theorem writeWords_sent (k a : Nat) (s : State) :
    FramesSent ((List.range k).flatMap fun j => passWordEvents s.params s.image (a + j)) s
      (writeWords k a s) := by
  induction k generalizing a s with
  | zero => exact .refl s
  | succ k ih =>
    have hevents : (List.range (k + 1)).flatMap (fun j => passWordEvents s.params s.image (a + j)) =
        passWordEvents s.params s.image a ++
          (List.range k).flatMap fun j => passWordEvents s.params s.image (a + 1 + j) := by
      simp only [List.range_succ_eq_map, List.flatMap_cons, List.flatMap_map, Nat.add_zero,
        Nat.succ_eq_add_one, Nat.add_right_comm a 1, Nat.add_assoc]
    rw [hevents]
    exact (passWord_sent a s).trans (fun p image => (List.range k).flatMap fun j =>
      passWordEvents p image (a + 1 + j)) (ih (a + 1) _)

/-- Fifteen words leave the image and the parameters that the sixteenth goes by as they were. -/
theorem writeRow_sent (r : Nat) (s : State) :
    FramesSent (rowEvents s.params s.image r) s (writeRow r s) :=
  (writeWords_sent 15 (16 * r) s).trans (fun p image => programWordEvents p image (16 * r + 15))
    (programWord_sent (16 * r + 15) _)

/-- Settles O55: an unfilled word's location is `0x3FFF`. -/
theorem programmedRowFrames : Obligations.ProgrammedRowFrames := by
  intro r s
  obtain ⟨⟨htrace, _⟩, _, himage, _⟩ := writeRow_sent r s
  exact ⟨htrace, himage⟩

end Sys2Proof.Machine
end

section
/-! PROOFS. The exceptions (60_exceptions.md): what a reserved operation select leaves (R92, R214). -/

namespace Sys2Proof.Machine

/-! ### A raised failure (R214, R219) -/

/-- An idle block already has the phase that the end of an operation leaves. -/
theorem raise_of_idle {s : State} (hidle : s.seq.phase = .idle) (failure : Status) :
    s.raise failure = { s with status := failure } := by
  have hseq : { s.seq with phase := .idle } = s.seq := by rw [← hidle]
  rw [State.raise, State.finish, hseq]

theorem exec_reservedOp_of_idle {s : State} (hidle : s.seq.phase = .idle) (op : BitVec 4) :
    exec (.reservedOp op) s = .next
      { s with status := .illegalOp, responses := s.responses ++ [⟨.illegalOp, 0⟩] } :=
  calc exec (.reservedOp op) s
    _ = .next ((s.raise .illegalOp).respond 0) := exec_eq _ _
    _ = .next (State.respond 0 { s with status := .illegalOp }) := by rw [raise_of_idle hidle]

/-- Settles O18: a select of 8 or more decodes to a reserved operation, and with its request taken the block
is as idle as before. -/
theorem reservedRequestIsIllegal : Obligations.ReservedRequestIsIllegal := by
  intro s hidle
  refine ⟨exec_reservedOp_of_idle hidle, fun w es hreset hrequests hop => ?_⟩
  have hdecode : decode s.params (.hostop w) = .ok (.reservedOp (hostOp w)) :=
    congrArg _ (decodeHostop_reserved hop)
  rw [step_of_decode hreset hrequests hdecode]
  exact exec_reservedOp_of_idle (s := { s with requests := es }) hidle _

end Sys2Proof.Machine
end

section
/-! PROOFS. Timing (70_reset_and_hazards.md): how long the waits of each operation take (R242, R252). -/

namespace Sys2Proof.Machine

/-! ### The waits of the operations (R252) -/

/-- After the six bits there is only the post-delay to wait (R112). -/
theorem duration_command (p : Params) (cmd : Code) (d : Nat) :
    duration (commandEvents p cmd d) = 6 * (p.tSetup + p.tHold) + d := by
  rw [commandEvents_eq, duration_append, duration_shiftOut, bitsLsbFirst_length]
  simp [duration, PinEvent.time]

/-- The start bit is waited for like the fifteen of the word, and nothing after them (R114). -/
theorem duration_dataOut (p : Params) (word : Word) :
    duration (dataOutEvents p word) = 16 * (p.tSetup + p.tHold) := by
  rw [dataOutEvents_eq, duration_append, duration_shiftOut, List.length_cons, bitsLsbFirst_length]
  rfl

/-- Turning DATA takes no time (R116). -/
theorem duration_dataIn (p : Params) (raw : Word) :
    duration (dataInEvents p raw) = 16 * (p.tCo + p.tHold) := by
  have hturn (dir : Dir) : duration [.dir .data dir] = 0 := rfl
  rw [dataInEvents_eq, duration_append, duration_append, duration_shiftIn, bitsLsbFirst_length, hturn,
    hturn, Nat.zero_add, Nat.add_zero]

/-- The additional pulse takes as long as a bit of the key (R88). -/
theorem duration_key (p : Params) : duration (keyEvents p) = 33 * (p.tSetup + p.tHold) := by
  rw [keyEvents_eq, duration_shiftOut, List.length_append, bitsLsbFirst_length]
  rfl

/-- MCLR's two levels are held before the key frame (R130). -/
theorem duration_enter (p : Params) :
    duration (enterEvents p) = p.tEntHigh + p.tEntLow + 33 * (p.tSetup + p.tHold) := by
  rw [enterEvents, duration_append, duration_key]
  simp [duration, PinEvent.time]

/-- Settles O37: the waits are those of the bits, the post-delay of a command and the two of `ENTER`. -/
theorem operationDurations : Obligations.OperationDurations := fun p =>
  ⟨duration_command p, duration_dataOut p, duration_dataIn p, duration_enter p, rfl⟩

end Sys2Proof.Machine
end

section
/-! PROOFS. The bit counter after each operation (10_state.md section 3) and the key frame as an instruction
of its own (R88). -/

namespace Sys2Proof.Machine

/-! ### The bit counter -/

/-- The index of the last bit that an operation shifts, and `before` when it shifts none (log entry 9). -/
def Operation.lastIndex (before : BitVec 6) : Operation → BitVec 6
  | .command _ _ => 5
  | .dataOut _ => 15
  | .dataIn _ => 15
  | .key => 32
  | .enter => 32
  | .exit => before
  | .deviceId => 15
  | .lookup _ => before
  | .reserved => before

theorem run_bitcnt (op : Operation) (s : State) :
    (op.run s).data.bitcnt = op.lastIndex s.data.bitcnt := by
  cases op with
  | command cmd d => rw [Operation.run, sendCommand_eq]; rfl
  | dataOut word => rw [Operation.run, writeData_eq]; rfl
  | dataIn given => rw [Operation.run, readData_eq]; rfl
  | key => rw [Operation.run, keyFrame_eq]; rfl
  | enter => rw [Operation.run, enterProgramMode_eq]; rfl
  | exit => rw [Operation.run, exitProgramMode_eq]; rfl
  | deviceId => rw [Operation.run, readDeviceId_eq, resolve_writes]; rfl
  | lookup word => rw [Operation.run, resolve_writes]; rfl
  | reserved => rfl

/-- Instructions whose operations all end at index `n` run to `BITCNT = n`; the answer does not touch it. -/
theorem exec_bitcnt {is : List Instr} {s : State} {n : BitVec 6}
    (h : ∀ i ∈ is, (instrOperation s.params i).lastIndex s.data.bitcnt = n) :
    ∀ i ∈ is, ∃ t, exec i s = .next t ∧ t.data.bitcnt = n := by
  intro i hi
  refine ⟨_, exec_eq i s, ?_⟩
  rw [answered_data, run_bitcnt, h i hi]

/-- Settles O47: the instructions of each clause run operations with one last index. -/
theorem bitCounterEndsAtLastIndex : Obligations.BitCounterEndsAtLastIndex := by
  intro s
  refine ⟨fun c d fuseWord => exec_bitcnt ?_, fun word last first payload => exec_bitcnt ?_,
    exec_bitcnt ?_, fun op x id rev => exec_bitcnt ?_⟩
  all_goals simp [instrOperation, Operation.lastIndex]

/-! ### The key frame (R88) -/

/-- Settles O23, by all that the key frame does. -/
theorem keyFrameIsThePulsesAlone : Obligations.KeyFrameIsThePulsesAlone := by
  intro s
  refine ⟨(shiftKey s.begin).finish .ok, rfl, ?_⟩
  rw [keyFrame_eq]
  exact ⟨emitAll_emitted rfl, (wire_emitAll_pins _ _ _).trans (after_key _ _), rfl⟩

end Sys2Proof.Machine
end

section
/-! PROOFS. The machine at rest: a step without a request (R35), and the invariant at reset (R35, R230,
R238). -/

namespace Sys2Proof.Machine

/-! ### Waiting (R35) -/

theorem step_of_noRequest {s : State} (hreset : s.resetPending = false) (hrequests : s.requests = []) :
    step s = .next s := by
  unfold step
  rw [hreset, fetch_nil s hrequests]

/-- Settles O7. -/
theorem stepWithoutRequestWaits : Obligations.StepWithoutRequestWaits := fun _ => step_of_noRequest

/-! ### The parameters of the first reset (R8, R238) -/

/-- Whatever the opaque entry is, the row it spells has a name, and a memory of 1 to 4095 rows of sixteen
words (R150, D17). -/
theorem rowOf_wf (e : BitVec 9 × Char × String × Fin 4095) : (Config.rowOf e).Wf := by
  obtain ⟨id, first, rest, rows⟩ := e
  have hsize : (BitVec.ofNat 16 (16 * (rows.val + 1))).toNat = 16 * (rows.val + 1) := by
    rw [BitVec.toNat_ofNat, Nat.mod_eq_of_lt (by omega)]
  refine ⟨fun hname => ?_, fun hzero => ?_, ?_⟩
  · simp [Config.rowOf] at hname
  · have hnat := congrArg BitVec.toNat hzero
    rw [Config.rowOf, hsize] at hnat
    simp at hnat
  · rw [Config.rowOf, hsize, Nat.mul_mod_right]

/-- The default parameters are well formed for all values of the opaque constants (log entry 11). -/
theorem paramsDefault_wf : Params.default.Wf := by
  refine ⟨by decide, fun r hr => ?_, ?_, ⟨Config.lvpBit.val, List.mem_range.2 Config.lvpBit.isLt, rfl⟩,
    by decide⟩
  · obtain ⟨e, _, rfl⟩ := List.mem_map.1 hr
    exact rowOf_wf e
  · exact Nat.lt_of_lt_of_le (by decide : fuseAddr < 0x2008) (Nat.le_add_right _ _)

/-- Settles O49: well-formed parameters, and the values of R35 for the rest. -/
theorem resetSatisfiesInvariant : Obligations.ResetSatisfiesInvariant where
  params := paramsDefault_wf
  clk := rfl
  data := rfl
  mclrLow := rfl
  mclrDriven := fun hsession => by cases hsession
  mclrReleased := fun _ => rfl
  session := .inl rfl
  phase := rfl
  pointer := fun hknown => by cases hknown
  status := .inl rfl
  deviceName := by decide
  deviceSize := by decide
  deviceRev := fun _ => rfl
  allocated := fun hvalid => by cases hvalid
  image := image_wf_nil _
  result := rfl
  memory := fun r href => by cases href

end Sys2Proof.Machine
end

section
/-! PROOFS. Sample words of the encodings (30_encoding.md, 95_test_vectors.md V13 to V15, V30). -/

namespace Sys2Proof.Machine

/-- The key frame's word is accepted, whatever the key (R88). -/
theorem decode_key33 (p : Params) : decode p (.key33 (keyFrameWord p.key)) = .ok .keyFrame := by
  rw [decode, if_pos rfl]

/-- Settles O5: each word evaluates to its fields put together, and the decoder gives fields back. -/
theorem sampleWordsDecode : Obligations.SampleWordsDecode :=
  ⟨congrArg _ (decodeHostop_sendcmd 0xFFC4 1),
    congrArg _ (decodeHostop_wrdata 0x1234 0),
    congrArg _ (decodeHostop_reserved (w := 0x9000000000000#52) (by decide)),
    congrArg _ (decodeCmd6_resetAddress (c := Codes.default) 0 (by decide)),
    decode_dout16 Params.default false 0x1234,
    decode_din16 Params.default true 0x1980 false,
    decode_key33 Params.default,
    decode_idword16 Params.default 0 0xCC 5⟩

end Sys2Proof.Machine
end
